-- ==== Sys2Proof/Word.lean ====
section
/-! DEFINITION. The widths of the SM3 core's values (spec 00_scope.md R5, R6, R9). -/

namespace Sys2Proof

/-- A byte (R6): a message byte, a byte of `BUF`, a byte of the digest. -/
abbrev Byte := BitVec 8

/-- A word (R6): a hash-state word, a working register, a schedule word. -/
abbrev Word := BitVec 32

/-- The total-bit counter's width, the only 64-bit quantity (R9). -/
abbrev LenWord := BitVec 64

/-- A command word (`CMD_BITS`, R5; R60). -/
abbrev CmdWord := BitVec 12

/-- Eight hash-state words (`STATE_WORDS`, R5). -/
abbrev HashWords := Vector Word 8

/-- One block: 64 bytes in stream order (`BLOCK_BYTES`, R5). -/
abbrev Block := Vector Byte 64

/-- The schedule `W[0..67]` (`SCHED_W`, R5). -/
abbrev Schedule := Vector Word 68

/-- The second schedule `W'[0..63]` (`SCHED_WP`, R5). -/
abbrev SecondSchedule := Vector Word 64

/-- A digest: 32 bytes, byte 0 first (`DIGEST_BYTES`, R5, R6). -/
abbrev Digest := Vector Byte 32

end Sys2Proof
end

