-- ==== Sys2Proof/Syntax.lean ====
section
/-! DEFINITION. The commands, one constructor per row of spec/opcode_table.json (spec 30_encoding.md R61). -/

namespace Sys2Proof

/-- A decoded command. An illegal word is not an `Instr`: the decoder rejects it (R65). -/
inductive Instr where
  /-- INIT: make the accumulator fresh (R100). -/
  | init
  /-- ABSORB b: append the message byte `b` (R101). -/
  | absorb (b : Byte)
  /-- FINAL: pad, compress, publish the digest (R121). -/
  | final
  deriving DecidableEq, Repr

end Sys2Proof
end

