-- ==== Sys2Proof/Assembly.lean ====
section
/-! DEFINITION. The assembler's lines (spec 30_encoding.md R67, R68) as syntax: operands are the numbers as written, so a
line may be ill-formed (WellFormed.lean), and the tokens of a line's text. -/

namespace Sys2Proof

/-- One line of a program: a row of R67's table or a pseudo-instruction of R68's. -/
inductive AsmLine where
  /-- `INIT` (R67). -/
  | init
  /-- `ABSORB <byte>` (R67). -/
  | absorb (byte : Nat)
  /-- `FINAL` (R67). -/
  | final
  /-- `.word <w>`, any 12-bit word (R67). -/
  | word (w : Nat)
  /-- `NEW` (R68). -/
  | new
  /-- `UPDATE <bytes>` (R68). -/
  | update (bytes : List Nat)
  /-- `HASH <bytes>` (R68). -/
  | hash (bytes : List Nat)
  deriving DecidableEq, Repr

/-- A token of a line's text: a run of characters, or a quoted string (R68; how it is quoted is the model's choice, log 7). -/
inductive AsmToken where
  /-- Unquoted characters. -/
  | plain (cs : List Char)
  /-- The characters between two double quotes. -/
  | quoted (cs : List Char)
  deriving DecidableEq, Repr

end Sys2Proof
end

