-- ==== Sys2Proof/WellFormed.lean ====
section
/-! DEFINITION. Which terms of the syntax are well formed (spec 30_encoding.md R62, R67, R68). -/

namespace Sys2Proof

/-- The one operand of a command is a byte of any value (R62), and its type holds exactly the byte values, so every `Instr`
is well formed: R65's decoder has no other results. -/
def Instr.wellFormed : Instr → Bool
  | .init => true
  | .absorb _ => true
  | .final => true

/-- The operand of an assembler line is in range: a `<byte>` is 0 to 255, a `<w>` is any 12-bit word (R67, R68). -/
def AsmLine.wellFormed : AsmLine → Bool
  | .init => true
  | .absorb b => b < 256
  | .final => true
  | .word w => w < 4096
  | .new => true
  | .update bytes => bytes.all (· < 256)
  | .hash bytes => bytes.all (· < 256)

end Sys2Proof
end

