-- ==== Sys2Proof/Decode.lean ====
section
/-! DEFINITION. Decoding of command words (spec 30_encoding.md R61 to R65), the encoder after it, and the opcode table as
match and mask. -/

namespace Sys2Proof

/-- Why a word is illegal (R63). -/
inductive Illegal where
  /-- `op` is none of 1, 2, 3 (R63). -/
  | reservedOpcode (op : BitVec 4)
  /-- `op` is 1 or 3 and the must-be-zero field `imm8` is not 0 (R62, R63). -/
  | operandNotZero (op : BitVec 4) (imm8 : Byte)
  deriving DecidableEq, Repr

/-- `op = cw[11:8]` (R61). -/
def opField (cw : CmdWord) : BitVec 4 := cw.extractLsb' 8 4

/-- `imm8 = cw[7:0]` (R61). -/
def imm8Field (cw : CmdWord) : Byte := cw.extractLsb' 0 8

/-- The decoder, total on the 4096 words, in every phase the same (R64, R65). -/
def decode (cw : CmdWord) : Except Illegal Instr :=
  let op := opField cw
  let imm8 := imm8Field cw
  if op = 1 ∧ imm8 = 0 then .ok .init
  else if op = 2 then .ok (.absorb imm8)
  else if op = 3 ∧ imm8 = 0 then .ok .final
  else if op = 1 ∨ op = 3 then .error (.operandNotZero op imm8)
  else .error (.reservedOpcode op)

/-- The word of a command (R61, R67): the opcode, then `imm8`. -/
def encode : Instr → CmdWord
  | .init => 0x1#4 ++ 0x00#8
  | .absorb b => 0x2#4 ++ b
  | .final => 0x3#4 ++ 0x00#8

/-- A row of the opcode map as a match and mask pair over the 12-bit word (R61). -/
structure OpcodeRow where
  /-- The value of the word under the mask. -/
  pattern : CmdWord
  /-- The bits of the word that are fixed. -/
  mask : CmdWord
  deriving DecidableEq, Repr

/-- The row of a command (R61: INIT match 0x100 mask 0xFFF, ABSORB match 0x200 mask 0xF00, FINAL match 0x300 mask 0xFFF). -/
def Instr.row : Instr → OpcodeRow
  | .init => ⟨0x100, 0xFFF⟩
  | .absorb _ => ⟨0x200, 0xF00⟩
  | .final => ⟨0x300, 0xFFF⟩

/-- The command whose bits are `w`, as spec/opcode_table.json numbers them: bit 0 of the word is bit 0 of `w`. A number that
does not fit the 12-bit port is no command word (log 6). -/
def decodeTableWord (nbits w : Nat) : Option Instr :=
  if w % 2 ^ nbits < 4096 then (decode (BitVec.ofNat 12 (w % 2 ^ nbits))).toOption else none

end Sys2Proof
end

