-- ==== Sys2Proof/Machine/Bytes.lean ====
section
/-! DEFINITION. The byte orders, all big-endian (spec 20_memory.md R41 to R44; primitives of 00_scope.md R8). -/

namespace Sys2Proof.Machine

/-- `be32(b0,b1,b2,b3) = b0 ‖ b1 ‖ b2 ‖ b3` (R8, R41). -/
def be32 (b0 b1 b2 b3 : Byte) : Word := b0 ++ b1 ++ b2 ++ b3

/-- `bytes_be(v, n)`: byte `k` is `v[8(n-k)-1 : 8(n-k-1)]` (R8). -/
def bytesBE {w : Nat} (v : BitVec w) (n : Nat) : Vector Byte n :=
  Vector.ofFn fun k => v.extractLsb' (8 * (n - 1 - k.val)) 8

end Sys2Proof.Machine
end

