-- ==== Sys2Proof/Config.lean ====
section
/-! DEFINITION. The implementation parameters (spec 00_scope.md R5): every one is fixed by the spec, none is left to the
implementation, and no behaviour is left open, so there is no free value here. The one open parameter, `LAT` (the time a
command takes), is one on which no rule depends (R178); the model has no time (log 5). The round constants and the IV are
in Machine/Constants.lean. -/

namespace Sys2Proof.Config

/-- `WORD_BITS`. -/
def wordBits : Nat := 32

/-- `STATE_WORDS`. -/
def stateWords : Nat := 8

/-- `BLOCK_BYTES`. -/
def blockBytes : Nat := 64

/-- `BLOCK_WORDS`. -/
def blockWords : Nat := 16

/-- `SCHED_W`. -/
def schedW : Nat := 68

/-- `SCHED_WP`. -/
def schedWP : Nat := 64

/-- `ROUNDS`. -/
def rounds : Nat := 64

/-- `LEN_BITS`. -/
def lenBits : Nat := 64

/-- `DIGEST_BYTES`, which is also `digest_size()` (R124). -/
def digestBytes : Nat := 32

/-- `CMD_BITS`. -/
def cmdBits : Nat := 12

/-- `MAX_MSG_BYTES`: the longest message accepted (R5, R104). -/
def maxMsgBytes : Nat := 2 ^ 61 - 1

end Sys2Proof.Config
end

