-- ==== Sys2Proof/Machine/Constants.lean ====
section
/-! DEFINITION. The wired constants `IV`, `T0`, `T1` (spec 10_state.md R31, R32) and the largest `LEN` (41_accumulate.md R104). -/

namespace Sys2Proof.Machine

/-- The initial hash value (R31). The spec supplies these words from general knowledge and checks them against its own
digests (log 8). -/
def IV : HashWords :=
  #v[0x7380166F, 0x4914B2B9, 0x172442D7, 0xDA8A0600, 0xA96F30BC, 0x163138AA, 0xE38DEE4D, 0xB0FB0E4E]

/-- The round constant of rounds 0 to 15 (R32). -/
def T0 : Word := 0x79CC4519

/-- The round constant of rounds 16 to 63 (R32). -/
def T1 : Word := 0x7A879D8A

/-- `2^64 - 8`, the largest reachable `LEN`: an ABSORB performed there overflows (R104). -/
def lenMax : LenWord := 0xFFFFFFFFFFFFFFF8

end Sys2Proof.Machine
end

