-- ==== Sys2Proof/Machine/Compress.lean ====
section
/-! DEFINITION. The Compression Engine (spec 40_compress.md R80 to R94): a pure function of eight words and one block. -/

namespace Sys2Proof.Machine

/-- `rotl(x, n)`: rotation left; `rotl(x, 0) = x` (R80). -/
def rotl (x : Word) (n : Fin 32) : Word :=
  if n.val = 0 then x else (x <<< n.val) ||| (x >>> (32 - n.val))

/-- `P0(x) = x ⊕ rotl(x, 9) ⊕ rotl(x, 17)` (R82). -/
def P0 (x : Word) : Word := x ^^^ rotl x 9 ^^^ rotl x 17

/-- `P1(x) = x ⊕ rotl(x, 15) ⊕ rotl(x, 23)` (R83). -/
def P1 (x : Word) : Word := x ^^^ rotl x 15 ^^^ rotl x 23

/-- `T_j = T0 if j < 16 else T1` (R84). -/
def roundT (j : Fin 64) : Word := if j.val < 16 then T0 else T1

/-- `K_j = rotl(T_j, j mod 32)`, for every `j` (R84; 90_conflicts.md C2). -/
def roundK (j : Fin 64) : Word := rotl (roundT j) (Fin.ofNat 32 j.val)

/-- `FF_j`: parity in rounds 0 to 15, majority in rounds 16 to 63 (R85). -/
def FF (j : Fin 64) (x y z : Word) : Word :=
  if j.val < 16 then x ^^^ y ^^^ z else (x &&& y) ||| (x &&& z) ||| (y &&& z)

/-- `GG_j`: parity in rounds 0 to 15, choice in rounds 16 to 63 (R86). -/
def GG (j : Fin 64) (x y z : Word) : Word :=
  if j.val < 16 then x ^^^ y ^^^ z else (x &&& y) ||| (~~~x &&& z)

/-- `W[i] = be32(B[4i], B[4i+1], B[4i+2], B[4i+3])` for `0 ≤ i ≤ 15` (R41, R87). -/
def blockWords (B : Block) : Vector Word 16 :=
  Vector.ofFn fun i => be32 B[4 * i.val] B[4 * i.val + 1] B[4 * i.val + 2] B[4 * i.val + 3]

/-- The schedule word `W[j]` from the words before it, where `j = 16 + k` is their number (R88). -/
def nextScheduleWord {k : Nat} (W : Vector Word (16 + k)) : Word :=
  P1 (W[16 + k - 16] ^^^ W[16 + k - 9] ^^^ rotl W[16 + k - 3] 15) ^^^ rotl W[16 + k - 13] 7 ^^^ W[16 + k - 6]

/-- The first `16 + k` schedule words, in ascending order (R88). -/
def expand (B : Block) : (k : Nat) → Vector Word (16 + k)
  | 0 => blockWords B
  | k + 1 => (expand B k).push (nextScheduleWord (expand B k))

/-- `W[0..67]` (R87, R88). -/
def schedule (B : Block) : Schedule := expand B 52

/-- `W'[j] = W[j] ⊕ W[j+4]` for `0 ≤ j ≤ 63` (R89). -/
def secondSchedule (W : Schedule) : SecondSchedule :=
  Vector.ofFn fun j => W[j.val] ^^^ W[j.val + 4]

/-- The working registers of one evaluation of `compress`; not state (R22, R90). -/
structure Working where
  a : Word
  b : Word
  c : Word
  d : Word
  e : Word
  f : Word
  g : Word
  h : Word
  deriving DecidableEq, Repr

/-- The working registers at the start (R90). -/
def Working.ofHash (S : HashWords) : Working where
  a := S[0]
  b := S[1]
  c := S[2]
  d := S[3]
  e := S[4]
  f := S[5]
  g := S[6]
  h := S[7]

/-- `SS1` of a round (R91). -/
def roundSS1 (j : Fin 64) (r : Working) : Word := rotl (rotl r.a 12 + r.e + roundK j) 7

/-- `SS2` of a round (R91). -/
def roundSS2 (j : Fin 64) (r : Working) : Word := roundSS1 j r ^^^ rotl r.a 12

/-- `TT1` of a round, which takes `W'[j]` (R91). -/
def roundTT1 (j : Fin 64) (w' : Word) (r : Working) : Word := FF j r.a r.b r.c + r.d + roundSS2 j r + w'

/-- `TT2` of a round, which takes `W[j]` (R91). -/
def roundTT2 (j : Fin 64) (w : Word) (r : Working) : Word := GG j r.e r.f r.g + r.h + roundSS1 j r + w

/-- One round; the right-hand sides use the registers before it (R91). -/
def roundStep (j : Fin 64) (w w' : Word) (r : Working) : Working where
  a := roundTT1 j w' r
  b := r.a
  c := rotl r.b 9
  d := r.c
  e := P0 (roundTT2 j w r)
  f := r.e
  g := rotl r.f 19
  h := r.g

/-- The rounds 0, 1, …, 63 in that order (R92). -/
def rounds (W : Schedule) (W' : SecondSchedule) (r : Working) : Working :=
  (List.finRange 64).foldl (fun r j => roundStep j W[j.val] W'[j.val] r) r

/-- The feed-forward: exclusive or of the final registers into the input state (R93). -/
def feedForward (S : HashWords) (r : Working) : HashWords :=
  #v[S[0] ^^^ r.a, S[1] ^^^ r.b, S[2] ^^^ r.c, S[3] ^^^ r.d, S[4] ^^^ r.e, S[5] ^^^ r.f, S[6] ^^^ r.g, S[7] ^^^ r.h]

/-- `compress(S, B)` (R94). Irreducible, so that no proof evaluates 64 rounds by accident; unfold it by name. -/
@[irreducible] def compress (S : HashWords) (B : Block) : HashWords :=
  feedForward S (rounds (schedule B) (secondSchedule (schedule B)) (Working.ofHash S))

end Sys2Proof.Machine
end

