-- ==== Sys2Proof/Machine/State.lean ====
section
/-! DEFINITION. The state of the SM3 core (spec 10_state.md R20 to R27), its reset value (R35), and the ways a step of the
model can stop. -/

namespace Sys2Proof.Machine

/-- The lifecycle register's three values; the code 3 is never taken (R26; 93_implementation_defined.md U10; log 3). -/
inductive Phase where
  /-- `PHASE = 0`: a fresh or partly fed accumulator. -/
  | absorb
  /-- `PHASE = 1`: FINAL has run and `V` holds the digest words. -/
  | done
  /-- `PHASE = 2`: a fault was raised and every command is ignored. -/
  | fault
  deriving DecidableEq, Repr

/-- The fault causes that `FCAUSE` holds; the codes 5, 6, 7 are never written (R27, R141; U10; log 3). -/
inductive Cause where
  /-- 0 NONE: no fault since reset. -/
  | none
  /-- 1 ILLEGAL_CMD (R142). -/
  | illegalCmd
  /-- 2 FINAL_AFTER_DONE (R143). -/
  | finalAfterDone
  /-- 3 ABSORB_AFTER_DONE (R144). -/
  | absorbAfterDone
  /-- 4 LEN_OVERFLOW (R145). -/
  | lenOverflow
  deriving DecidableEq, Repr

/-- What the host can send (R180, R181): reset, or one command word. -/
inductive PortEvent where
  /-- The input `rst` (R170). -/
  | rst
  /-- A command word presented at the port (R60). -/
  | cmd (cw : CmdWord)
  deriving DecidableEq, Repr

/-- The block buffer as a memory: pairs of an address and the byte there, addresses strictly rising, listing only bytes
other than the reset byte (log 2). -/
abbrev Memory := List Host.Cell

/-- The whole state: the six items of R20 under their own names, and the host's events that are still to arrive, which are
the model's own (log 1). -/
structure State where
  /-- `V[0..7]`, HashState (R21). -/
  V : HashWords
  /-- `BUF[0..63]`, BlockBuffer (R23). -/
  BUF : Memory
  /-- `CNT`, the number of buffered bytes, 0 to 63 between commands (R24). -/
  CNT : Fin 64
  /-- `LEN`, TotalBitCount (R25). -/
  LEN : LenWord
  /-- `PHASE` (R26). -/
  PHASE : Phase
  /-- `FCAUSE` (R27). -/
  FCAUSE : Cause
  /-- The model's own: the events the host has yet to have accepted, oldest first (R60, R180; log 1). -/
  port : List PortEvent
  deriving DecidableEq, Repr

/-- The state right after reset (R35, R170), with nothing at the port. -/
def State.reset : State where
  V := IV
  BUF := []
  CNT := 0
  LEN := 0
  PHASE := .absorb
  FCAUSE := .none
  port := []

/-- Why the MODEL stops. The hardware's own faults (R141) are next states with `PHASE = FAULT`, not these. -/
inductive Fault where
  /-- `MemRead` or `MemWrite` called outside `BUF[0..63]` (R52: "A model may make an out-of-bound call an error; none is
  reachable"). Raised by `memRead` and `memWrite`. Safe: the machine stops where the spec gives no access. -/
  | bufOutOfRange
  deriving DecidableEq, Repr

/-- Why the model gives an instruction no meaning. -/
inductive Refusal where
  /-- The instruction has no meaning yet. Raised only by an arm of `exec`; no arm raises it now. Safe. -/
  | notModelled (mnemonic : String)
  deriving DecidableEq, Repr

end Sys2Proof.Machine
end

