-- ==== Sys2Proof/Machine/Ops.lean ====
section
/-! DEFINITION. The named operations over the block buffer (spec 20_memory.md R52) and over the phase machine: taking a fault
(60_exceptions.md R147), ignoring a command in FAULT (R148), and reset, the one way back from a fault (70_reset_and_hazards.md
R149, R170). -/

namespace Sys2Proof.Machine

/-- What every address of `BUF` holds after reset and INIT, and what an unlisted address reads as (R35, R100). -/
def Memory.unlisted : Byte := 0x00

/-- `BUF` with every byte 0x00. -/
def Memory.cleared : Memory := []

/-- The byte at an address. -/
def Memory.read : Memory → Nat → Byte
  | [], _ => Memory.unlisted
  | (a', b) :: m, a => if a' = a then b else Memory.read m a

/-- Put a byte in front of a memory whose addresses are all larger, keeping the canonical form. -/
def Memory.put (a : Nat) (b : Byte) (m : Memory) : Memory :=
  if b = Memory.unlisted then m else (a, b) :: m

/-- Store one byte, keeping the canonical form. -/
def Memory.write : Memory → Nat → Byte → Memory
  | [], a, b => Memory.put a b []
  | (a', b') :: m, a, b =>
    if a < a' then Memory.put a b ((a', b') :: m)
    else if a = a' then Memory.put a b m
    else (a', b') :: Memory.write m a b

/-- The canonical form: addresses strictly rising and within 0 to 63, no byte equal to what an unlisted address reads as. -/
def Memory.wf : Memory → Bool
  | [] => true
  | (a, b) :: m => a < 64 && b != Memory.unlisted && m.all (fun c => a < c.1) && Memory.wf m

/-- Store bytes at consecutive addresses. -/
def Memory.writeBytes (m : Memory) (addr : Nat) : List Byte → Memory
  | [] => m
  | b :: bs => Memory.writeBytes (m.write addr b) (addr + 1) bs

/-- The `n` bytes from an address on. -/
def Memory.bytes (m : Memory) (addr n : Nat) : Vector Byte n :=
  Vector.ofFn fun k => m.read (addr + k.val)

/-- `MemRead(addr, n)`: `BUF[addr] … BUF[addr+n-1]`, defined for `addr + n ≤ 64` (R8, R52). -/
def memRead (m : Memory) (addr n : Nat) : Except Fault (Vector Byte n) :=
  if addr + n ≤ 64 then .ok (m.bytes addr n) else .error .bufOutOfRange

/-- `MemWrite(addr, n, v)`: byte `k` of `v` to `BUF[addr+k]`, defined for `addr + n ≤ 64` (R8, R52). -/
def memWrite {n : Nat} (m : Memory) (addr : Nat) (v : Vector Byte n) : Except Fault Memory :=
  if addr + n ≤ 64 then .ok (m.writeBytes addr v.toList) else .error .bufOutOfRange

/-- `MemWrite` on the state. -/
def State.store {n : Nat} (s : State) (addr : Nat) (v : Vector Byte n) : Except Fault State :=
  (memWrite s.BUF addr v).map fun m => { s with BUF := m }

/-- `raise Fault(c)`: record the cause and enter FAULT; `V`, `BUF`, `CNT`, `LEN` keep their values (R147). -/
def State.raise (c : Cause) (s : State) : State :=
  { s with FCAUSE := c, PHASE := .fault }

/-- The event `rst`: every piece of the core's state takes its reset value (R170). It is the only way out of FAULT (R149).
The host's later events stay at the port. -/
def State.applyReset (s : State) : State :=
  { State.reset with port := s.port }

/-- The outcome of a computation that accesses `BUF`. -/
def ofAccess (r : Except Fault State) : Host.Outcome State Fault Refusal :=
  match r with
  | .ok s => .next s
  | .error f => .fault f

/-- A command or word that FAULT makes the core ignore (R148, R146 case 1) and that otherwise changes the state by `k`. -/
def unlessFaulted (k : State → State) (s : State) : Host.Outcome State Fault Refusal :=
  match s.PHASE with
  | .fault => .next s
  | .absorb => .next (k s)
  | .done => .next (k s)

/-- A command that is legal in phase ABSORB only: ignored in FAULT (R148), the fault `c` in DONE (R143, R144, R146 case 3). -/
def whileAbsorbing (c : Cause) (k : State → Except Fault State) (s : State) : Host.Outcome State Fault Refusal :=
  match s.PHASE with
  | .fault => .next s
  | .done => .next (s.raise c)
  | .absorb => ofAccess (k s)

/-- Accepting an illegal word: ILLEGAL_CMD in ABSORB and DONE, ignored in FAULT (R142, R146, R148). -/
def illegalWord (s : State) : Host.Outcome State Fault Refusal :=
  unlessFaulted (State.raise .illegalCmd) s

end Sys2Proof.Machine
end

