-- ==== Sys2Proof/Machine/Operands.lean ====
section
/-! DEFINITION. The operands of the commands: ABSORB's byte (spec 30_encoding.md R62), the padding's marker, zeros and length
suffix (20_memory.md R42, R45, 42_finalize.md R120). -/

namespace Sys2Proof.Machine

/-- ABSORB's operand: `imm8` as it stands, not extended, scaled or shifted (R62), as the one byte `MemWrite` stores. -/
def absorbOperand (b : Byte) : Vector Byte 1 := #v[b]

/-- The marker byte 0x80: a 1 bit in the most significant position (R45, R120). -/
def marker : Vector Byte 1 := #v[0x80]

/-- `n` bytes 0x00 (R120). -/
def zeroBytes (n : Nat) : Vector Byte n := Vector.replicate n 0x00

/-- The length suffix: "the 8-byte big-endian encoding of TotalBitCount" (R42, R120). -/
def lengthSuffix (len : LenWord) : Vector Byte 8 := bytesBE len 8

end Sys2Proof.Machine
end

