-- ==== Sys2Proof/Machine/Accumulate.lean ====
section
/-! DEFINITION. The Streaming Accumulator's commands INIT and ABSORB (spec 41_accumulate.md R100, R101, R104). -/

namespace Sys2Proof.Machine

/-- `do_init` (R100): `FCAUSE` is unchanged. -/
def doInit (s : State) : State :=
  { s with V := IV, BUF := Memory.cleared, CNT := 0, LEN := 0, PHASE := .absorb }

/-- INIT: ignored in FAULT, otherwise a fresh accumulator (R100). -/
def execInit (s : State) : Host.Outcome State Fault Refusal :=
  unlessFaulted doInit s

/-- `V <- compress(V, MemRead(0, 64))`: one block through the Compression Engine (R101, R121). -/
def flushBlock (s : State) : Except Fault State :=
  (memRead s.BUF 0 64).map fun B => { s with V := compress s.V B }

/-- `CNT <- CNT + 1`, and when that is 64 the block is compressed and `CNT` is 0 (R101; R24: 64 is only transient). -/
def countByte (s : State) : Except Fault State :=
  if h : s.CNT.val + 1 < 64 then .ok { s with CNT := ⟨s.CNT.val + 1, h⟩ }
  else (flushBlock s).map fun s => { s with CNT := 0 }

/-- `do_absorb` (R101, R104), performed in phase ABSORB. -/
def doAbsorb (b : Byte) (s : State) : Except Fault State :=
  if s.LEN = lenMax then .ok (s.raise .lenOverflow)
  else do
    let s ← State.store { s with LEN := s.LEN + 8 } s.CNT.val (absorbOperand b)
    countByte s

/-- ABSORB b: ignored in FAULT, cause 3 in DONE, otherwise `do_absorb` (R101, R144). -/
def execAbsorb (b : Byte) (s : State) : Host.Outcome State Fault Refusal :=
  whileAbsorbing .absorbAfterDone (doAbsorb b) s

end Sys2Proof.Machine
end

