-- ==== Sys2Proof/Machine/Finalize.lean ====
section
/-! DEFINITION. The command FINAL: padding and the last block or blocks (spec 42_finalize.md R120, R121). -/

namespace Sys2Proof.Machine

/-- When the length does not fit after the marker (`n + 1 > 56`), the current block is compressed first and the buffer becomes
a fresh all-zero block (R120, R121). -/
def spillBlock (n : Nat) (s : State) : Except Fault State :=
  if n + 1 > 56 then (flushBlock s).map fun s => { s with BUF := Memory.cleared }
  else .ok s

/-- `do_final` (R121), performed in phase ABSORB; the steps are sequential as written. -/
def doFinal (s : State) : Except Fault State := do
  let n := s.CNT.val
  let s ← s.store n marker
  let s ← s.store (n + 1) (zeroBytes (63 - n))
  let s ← spillBlock n s
  let s ← s.store 56 (lengthSuffix s.LEN)
  let s ← flushBlock s
  .ok { s with CNT := 0, PHASE := .done }

/-- FINAL: ignored in FAULT, cause 2 in DONE, otherwise `do_final` (R121, R143). -/
def execFinal (s : State) : Host.Outcome State Fault Refusal :=
  whileAbsorbing .finalAfterDone doFinal s

end Sys2Proof.Machine
end

