-- ==== Sys2Proof/Machine/Port.lean ====
section
/-! DEFINITION. What one accepted command word and one reset event do (spec 30_encoding.md R66, 70_reset_and_hazards.md R170),
and a run as a sequence of events (R180). -/

namespace Sys2Proof.Machine

/-- One accepted command word (R66): an illegal word raises cause 1, a legal one is performed; in FAULT either is ignored. -/
def acceptWord (cw : CmdWord) (s : State) : Host.Outcome State Fault Refusal :=
  match decode cw with
  | .ok i => exec i s
  | .error _ => illegalWord s

/-- One event of the host (R180). -/
def performEvent (e : PortEvent) (s : State) : Host.Outcome State Fault Refusal :=
  match e with
  | .rst => .next s.applyReset
  | .cmd cw => acceptWord cw s

/-- A run (R180): the events applied in order, each completely before the next (R49). -/
def run : List PortEvent → State → Host.Outcome State Fault Refusal
  | [], s => .next s
  | e :: es, s =>
    match performEvent e s with
    | .next t => run es t
    | .fault f => .fault f
    | .refused r => .refused r

/-- The state with a command word put at the head of the port, ahead of what waits there. A number that does not fit the
12-bit port cannot be presented (log 6). -/
def presentWord (s : State) (nbits w : Nat) : State :=
  if w % 2 ^ nbits < 4096 then { s with port := .cmd (BitVec.ofNat 12 (w % 2 ^ nbits)) :: s.port } else s

end Sys2Proof.Machine
end

