-- ==== Sys2Proof/Machine/Step.lean ====
section
/-! DEFINITION. One step: the next event at the port is accepted and performed (spec 30_encoding.md R60, R66). -/

namespace Sys2Proof.Machine

/-- When no event waits, the state does not change (R60); otherwise the oldest is taken off the port and performed. -/
def step (s : State) : Host.Outcome State Fault Refusal :=
  match s.port with
  | [] => .next s
  | e :: rest => performEvent e { s with port := rest }

/-- Present a command word so that the next step accepts it: the core fetches nothing, the host presents (R29, R60; log 1). -/
def State.withFetchWord (s : State) (nbits w : Nat) : State := presentWord s nbits w

end Sys2Proof.Machine
end

