-- ==== Sys2Proof/Machine/Flags.lean ====
section
/-! DEFINITION. The four outputs, pure functions of the state (spec 10_state.md R28), and the digest's bytes (20_memory.md R43,
42_finalize.md R124). The core has no arithmetic flags (R81). -/

namespace Sys2Proof.Machine

/-- The 2-bit code of a phase (R26). -/
def Phase.code : Phase → BitVec 2
  | .absorb => 0
  | .done => 1
  | .fault => 2

/-- The 3-bit code of a cause (R27, R141). -/
def Cause.code : Cause → BitVec 3
  | .none => 0
  | .illegalCmd => 1
  | .finalAfterDone => 2
  | .absorbAfterDone => 3
  | .lenOverflow => 4

/-- `phase_o` (R28). -/
def State.phaseO (s : State) : BitVec 2 := s.PHASE.code

/-- `fcause_o` (R28). -/
def State.fcauseO (s : State) : BitVec 3 := s.FCAUSE.code

/-- `digest_valid_o`: 1 exactly in phase DONE (R28). -/
def State.digestValidO (s : State) : BitVec 1 :=
  match s.PHASE with
  | .done => 1
  | .absorb => 0
  | .fault => 0

/-- `V[0] ‖ V[1] ‖ … ‖ V[7]` (R28). -/
def concatWords (v : HashWords) : BitVec 256 :=
  v[0] ++ v[1] ++ v[2] ++ v[3] ++ v[4] ++ v[5] ++ v[6] ++ v[7]

/-- `digest_o`: the hash state in phase DONE, 256 zero bits otherwise (R28). -/
def State.digestO (s : State) : BitVec 256 :=
  match s.PHASE with
  | .done => concatWords s.V
  | .absorb => 0
  | .fault => 0

/-- The digest's 32 bytes: the words big-endian, word 0 first; byte `4i+k` is `V[i][31-8k : 24-8k]` (R43, R124). -/
def digestBytes (v : HashWords) : Digest :=
  Vector.ofFn fun p => (bytesBE v[p.val / 4] 4)[p.val % 4]

end Sys2Proof.Machine
end

