-- ==== Sys2Proof/Machine/Pseudo.lean ====
section
/-! DEFINITION. The pseudo-instructions (spec 30_encoding.md R68), and the two reference forms the spec relates to the commands:
the chunk form of `update` (41_accumulate.md R102) and the closed form of the whole hash (42_finalize.md R126). The reference
forms are no commands: the core performs `update` as ABSORB beats (R102) and the hash as INIT, ABSORBs, FINAL (R126). -/

namespace Sys2Proof.Machine

/-- `NEW` expands to INIT (R68). -/
def newCommands : List Instr := [.init]

/-- `UPDATE data` expands to one ABSORB per byte, to nothing for an empty chunk (R68, R105). -/
def updateCommands (data : List Byte) : List Instr := data.map .absorb

/-- `HASH M` expands to INIT, `UPDATE M`, FINAL (R68, R126). -/
def hashCommands (M : List Byte) : List Instr := newCommands ++ updateCommands M ++ [.final]

/-- The commands as the host presents them. -/
def commandEvents (is : List Instr) : List PortEvent := is.map fun i => .cmd (encode i)

/-- The first 64 bytes of a byte sequence, in stream order. -/
def blockOf (data : List Byte) : Block := Vector.ofFn fun k => data.getD k.val 0x00

/-- `compress` over the first `q` blocks of a byte sequence, in increasing order (R106, R126). -/
def compressBlocks : Nat → HashWords → List Byte → HashWords
  | 0, V, _ => V
  | q + 1, V, data => compressBlocks q (compress V (blockOf data)) (data.drop 64)

/-- The first `if` of `update`: a buffer that already holds bytes is filled from the front of the chunk, and compressed when
that completes a block. Answers the state and the rest of the chunk (R102). -/
def topUp (data : List Byte) (s : State) : State × List Byte :=
  if s.CNT.val > 0 then
    let t := min (64 - s.CNT.val) data.length
    let buf := s.BUF.writeBytes s.CNT.val (data.take t)
    if h : s.CNT.val + t < 64 then ({ s with BUF := buf, CNT := ⟨s.CNT.val + t, h⟩ }, data.drop t)
    else ({ s with BUF := buf, V := compress s.V (buf.bytes 0 64), CNT := 0 }, data.drop t)
  else (s, data)

/-- The rest of `update`: whole blocks go to `compress` directly, the remainder into the buffer (R102). -/
def feedRest (s : State) (data : List Byte) : State :=
  let q := data.length / 64
  let rest := data.drop (64 * q)
  { s with V := compressBlocks q s.V data, BUF := s.BUF.writeBytes s.CNT.val rest,
           CNT := Fin.ofNat 64 (s.CNT.val + rest.length) }

/-- `update(data)`, the chunk form (R102), where it applies: phase ABSORB, and `LEN + 8·n < 2^64` in unbounded integers
(R104). -/
def updateChunk (data : List Byte) (s : State) : Option State :=
  if s.PHASE = .absorb ∧ s.LEN.toNat + 8 * data.length < 2 ^ 64 then
    let r := topUp data { s with LEN := s.LEN + BitVec.ofNat 64 (8 * data.length) }
    some (feedRest r.1 r.2)
  else none

/-- The number of 0x00 bytes the padding appends: `(55 - n) mod 64` (R120, R126). -/
def zeroCount (n : Nat) : Nat := ((55 - (n : Int)) % 64).toNat

/-- The padded message `M ‖ 0x80 ‖ zeros ‖ bytes_be(8n, 8)` (R126). -/
def padded (M : List Byte) : List Byte :=
  M ++ 0x80 :: List.replicate (zeroCount M.length) 0x00 ++ (bytesBE (BitVec.ofNat 64 (8 * M.length)) 8).toList

/-- The closed form of the whole hash, for messages of at most `2^61 - 1` bytes (R126). -/
def hashOf (M : List Byte) : Digest :=
  digestBytes (compressBlocks ((padded M).length / 64) IV (padded M))

end Sys2Proof.Machine
end

