-- ==== Sys2Proof/Machine/Assembler.lean ====
section
/-! DEFINITION. The assembler (spec 30_encoding.md R67, R68): a line's text to an `AsmLine`, an `AsmLine` to command words. It is
host notation, no part of a step; what R67 leaves open of the text form is log 7. -/

namespace Sys2Proof.Machine

/-- The words a line stands for; none when an operand is out of range. -/
def assemble (l : AsmLine) : Option (List CmdWord) :=
  if l.wellFormed then
    match l with
    | .init => some [encode .init]
    | .absorb b => some [encode (.absorb (BitVec.ofNat 8 b))]
    | .final => some [encode .final]
    | .word w => some [BitVec.ofNat 12 w]
    | .new => some (newCommands.map encode)
    | .update bytes => some ((updateCommands (bytes.map (BitVec.ofNat 8))).map encode)
    | .hash bytes => some ((hashCommands (bytes.map (BitVec.ofNat 8))).map encode)
  else none

/-- The value of a digit character in base 10 or 16. -/
def digitValue (c : Char) : Option Nat :=
  if 48 ≤ c.toNat ∧ c.toNat ≤ 57 then some (c.toNat - 48)
  else if 65 ≤ c.toNat ∧ c.toNat ≤ 70 then some (c.toNat - 55)
  else if 97 ≤ c.toNat ∧ c.toNat ≤ 102 then some (c.toNat - 87)
  else none

/-- A run of digits in a base, most significant first. -/
def digitsValue (base : Nat) : Nat → List Char → Option Nat
  | acc, [] => some acc
  | acc, c :: cs =>
    match digitValue c with
    | none => none
    | some d => if d < base then digitsValue base (acc * base + d) cs else none

/-- A number as written: `0x` and hexadecimal digits, or decimal digits (R67, of a byte; any number of digits, and both forms for
`.word` too: DESIGN CHOICE, log 7). -/
def numberOf : List Char → Option Nat
  | [] => none
  | ['0', 'x'] => none
  | '0' :: 'x' :: cs => digitsValue 16 0 cs
  | cs => digitsValue 10 0 cs

/-- The token read so far, given backwards, before the tokens after it. -/
def emitToken (cur : List Char) (ts : List AsmToken) : List AsmToken :=
  if cur.isEmpty then ts else .plain cur.reverse :: ts

/-- The tokens of a line: a `;` begins a comment (R67), and R68 has quoted strings. How tokens are separated and how a string is
quoted the spec leaves open, DESIGN CHOICE (log 7): blanks separate; a string stands between two double quotes, with no other
quote character and no escape, so that it holds any character but a double quote, a `;` among them; a quote may follow or be
followed by a token without a blank. -/
def tokens : (quoted : Bool) → (cur : List Char) → List Char → Option (List AsmToken)
  | true, _, [] => none
  | false, cur, [] => some (emitToken cur [])
  | true, cur, c :: cs =>
    if c = '"' then (tokens false [] cs).map (.quoted cur.reverse :: ·) else tokens true (c :: cur) cs
  | false, cur, c :: cs =>
    if c = ';' then some (emitToken cur [])
    else if c = ' ' ∨ c = '\t' ∨ c = '\r' then (tokens false [] cs).map (emitToken cur)
    else if c = '"' then (tokens true [] cs).map (emitToken cur)
    else tokens false (c :: cur) cs

/-- A numeric operand. -/
def numberToken : AsmToken → Option Nat
  | .plain cs => numberOf cs
  | .quoted _ => none

/-- The byte operands of UPDATE and HASH: numbers, or one quoted ASCII string (R68); a string beside other operands is refused
(DESIGN CHOICE, log 7). -/
def byteOperands : List AsmToken → Option (List Nat)
  | [.quoted cs] => if cs.all (fun c => c.toNat < 128) then some (cs.map Char.toNat) else none
  | ts => ts.mapM numberToken

/-- A line from its tokens; `none` inside for a line that holds no command, `none` outside for a line that is no line of
R67 or R68. -/
def lineOf : List AsmToken → Option (Option AsmLine)
  | [] => some none
  | .plain name :: ts =>
    if name = ['I', 'N', 'I', 'T'] then (if ts.isEmpty then some (some .init) else none)
    else if name = ['F', 'I', 'N', 'A', 'L'] then (if ts.isEmpty then some (some .final) else none)
    else if name = ['N', 'E', 'W'] then (if ts.isEmpty then some (some .new) else none)
    else if name = ['A', 'B', 'S', 'O', 'R', 'B'] then
      match ts with
      | [t] => (numberToken t).map fun n => some (.absorb n)
      | _ => none
    else if name = ['.', 'w', 'o', 'r', 'd'] then
      match ts with
      | [t] => (numberToken t).map fun n => some (.word n)
      | _ => none
    else if name = ['U', 'P', 'D', 'A', 'T', 'E'] then (byteOperands ts).map fun bs => some (.update bs)
    else if name = ['H', 'A', 'S', 'H'] then (byteOperands ts).map fun bs => some (.hash bs)
    else none
  | .quoted _ :: _ => none

/-- The words of one line of text. -/
def assembleLine (text : List Char) : Option (List CmdWord) :=
  match (tokens false [] text).bind lineOf with
  | none => none
  | some none => some []
  | some (some l) => assemble l

/-- The words of a program, one line of text after another. -/
def assembleProgram : List (List Char) → Option (List CmdWord)
  | [] => some []
  | l :: ls =>
    match assembleLine l, assembleProgram ls with
    | some ws, some rest => some (ws ++ rest)
    | _, _ => none

end Sys2Proof.Machine
end

