-- ==== Sys2Proof/Safety.lean ====
section
/-! DEFINITION. What a run has come to (spec 70_reset_and_hazards.md R180), the invariant of every step, and what it is for a
state to hold a message prefix (41_accumulate.md R106). -/

namespace Sys2Proof.Machine

/-- What a run has come to, by its last state (R180). -/
inductive RunResult where
  /-- PHASE = DONE: the run has produced this digest. -/
  | digest (d : Digest)
  /-- PHASE = FAULT: the run has gone wrong and has no digest. -/
  | failed (c : Cause)
  /-- PHASE = ABSORB: the run is unfinished and has no digest. -/
  | unfinished
  deriving DecidableEq, Repr

/-- The result of a run that ends in a state (R180). -/
def State.result (s : State) : RunResult :=
  match s.PHASE with
  | .done => .digest (digestBytes s.V)
  | .fault => .failed s.FCAUSE
  | .absorb => .unfinished

/-- What every step keeps: the buffer's canonical form (log 2); `FCAUSE ≠ 0` exactly in FAULT (R27); `LEN` a multiple of 8
(R25); in ABSORB `CNT = (LEN / 8) mod 64` (R33); in DONE `CNT = 0` (R125). -/
structure State.Inv (s : State) : Prop where
  buf_wf : s.BUF.wf = true
  cause_iff_fault : s.FCAUSE ≠ .none ↔ s.PHASE = .fault
  len_multiple : s.LEN.toNat % 8 = 0
  count_of_len : s.PHASE = .absorb → s.CNT.val = s.LEN.toNat / 8 % 64
  done_count : s.PHASE = .done → s.CNT = 0

/-- The state holds the message prefix `M`, absorbed since the last initialisation (R106). -/
structure State.HoldsPrefix (s : State) (M : List Byte) : Prop where
  phase : s.PHASE = .absorb
  fits : M.length ≤ Config.maxMsgBytes
  words : s.V = compressBlocks (M.length / 64) IV M
  count : s.CNT.val = M.length % 64
  buffered : ∀ a, a < M.length % 64 → s.BUF.read a = M.getD (64 * (M.length / 64) + a) 0x00
  len : s.LEN.toNat = 8 * M.length
  buf_wf : s.BUF.wf = true

/-- Two states alike in everything that is not dead: the dead bytes are `BUF[i]` for `i ≥ CNT` in ABSORB, and all of `BUF`
in DONE and FAULT (R23, R125). -/
structure State.AlikeButDead (s t : State) : Prop where
  words : t.V = s.V
  count : t.CNT = s.CNT
  len : t.LEN = s.LEN
  phase : t.PHASE = s.PHASE
  cause : t.FCAUSE = s.FCAUSE
  waiting : t.port = s.port
  live : s.PHASE = .absorb → ∀ a, a < s.CNT.val → t.BUF.read a = s.BUF.read a

end Sys2Proof.Machine
end

