-- ==== Sys2Proof/Certificates/Slice0/Obligations.lean ====
section
/-! DEFINITION. The statements for the provers. Each docstring names what it formalises in spec/. The definitions under
Sys2Proof.Statements say, in the rules' own terms, what a statement compares the model with. -/

open Sys2Proof Sys2Proof.Machine

/-! ### What the statements compare with -/

/-- R48, `0 ≤ n ≤ 55`: message bytes, marker, zeros, length suffix. -/
def Sys2Proof.Statements.onlyBlock (s : State) : Block :=
  Vector.ofFn fun a =>
    if a.val < s.CNT.val then s.BUF.read a.val
    else if a.val = s.CNT.val then 0x80
    else if a.val < 56 then 0x00
    else s.LEN.extractLsb' (8 * (63 - a.val)) 8

/-- R48, `56 ≤ n ≤ 63`, the first block: message bytes, marker, zeros. -/
def Sys2Proof.Statements.firstOfTwo (s : State) : Block :=
  Vector.ofFn fun a =>
    if a.val < s.CNT.val then s.BUF.read a.val else if a.val = s.CNT.val then 0x80 else 0x00

/-- R48, `56 ≤ n ≤ 63`, the second block: zeros, length suffix. -/
def Sys2Proof.Statements.secondOfTwo (s : State) : Block :=
  Vector.ofFn fun a => if a.val < 56 then 0x00 else s.LEN.extractLsb' (8 * (63 - a.val)) 8

/-- R63: which words are illegal, `op` and `imm8` read off the word as a number. -/
def Sys2Proof.Statements.IllegalBits (cw : CmdWord) : Prop :=
  let op := cw.toNat / 256
  let imm8 := cw.toNat % 256
  (op ≠ 1 ∧ op ≠ 2 ∧ op ≠ 3) ∨ ((op = 1 ∨ op = 3) ∧ imm8 ≠ 0)

/-- R146's list of checks: the word `cw` raises the fault `c` in the state `s`. -/
def Sys2Proof.Statements.RaisesByPriority (cw : CmdWord) (s : State) (c : Cause) : Prop :=
  let op := cw.toNat / 256
  s.PHASE ≠ .fault ∧
    ((Statements.IllegalBits cw ∧ c = .illegalCmd) ∨
     (¬ Statements.IllegalBits cw ∧ op = 2 ∧ s.PHASE = .done ∧ c = .absorbAfterDone) ∨
     (¬ Statements.IllegalBits cw ∧ op = 3 ∧ s.PHASE = .done ∧ c = .finalAfterDone) ∨
     (¬ Statements.IllegalBits cw ∧ op = 2 ∧ s.PHASE = .absorb ∧ s.LEN = 0xFFFFFFFFFFFFFFF8 ∧ c = .lenOverflow))

/-- R84's table, row by row. -/
def Sys2Proof.Statements.roundTable : List Word :=
  [0x79CC4519, 0xF3988A32, 0xE7311465, 0xCE6228CB, 0x9CC45197, 0x3988A32F, 0x7311465E, 0xE6228CBC,
   0xCC451979, 0x988A32F3, 0x311465E7, 0x6228CBCE, 0xC451979C, 0x88A32F39, 0x11465E73, 0x228CBCE6] ++
  [0x9D8A7A87, 0x3B14F50F, 0x7629EA1E, 0xEC53D43C, 0xD8A7A879, 0xB14F50F3, 0x629EA1E7, 0xC53D43CE,
   0x8A7A879D, 0x14F50F3B, 0x29EA1E76, 0x53D43CEC, 0xA7A879D8, 0x4F50F3B1, 0x9EA1E762, 0x3D43CEC5] ++
  [0x7A879D8A, 0xF50F3B14, 0xEA1E7629, 0xD43CEC53, 0xA879D8A7, 0x50F3B14F, 0xA1E7629E, 0x43CEC53D,
   0x879D8A7A, 0x0F3B14F5, 0x1E7629EA, 0x3CEC53D4, 0x79D8A7A8, 0xF3B14F50, 0xE7629EA1, 0xCEC53D43] ++
  [0x9D8A7A87, 0x3B14F50F, 0x7629EA1E, 0xEC53D43C, 0xD8A7A879, 0xB14F50F3, 0x629EA1E7, 0xC53D43CE,
   0x8A7A879D, 0x14F50F3B, 0x29EA1E76, 0x53D43CEC, 0xA7A879D8, 0x4F50F3B1, 0x9EA1E762, 0x3D43CEC5]

/-- R91: the registers `r'` after round `j` from the registers `r` before it, with `w = W[j]` and `w' = W'[j]`. -/
def Sys2Proof.Statements.RoundFormula (j : Fin 64) (w w' : Word) (r r' : Working) : Prop :=
  let T : Word := if j.val < 16 then 0x79CC4519 else 0x7A879D8A
  let SS1 := rotl (rotl r.a 12 + r.e + rotl T (Fin.ofNat 32 (j.val % 32))) 7
  let SS2 := SS1 ^^^ rotl r.a 12
  let TT1 := FF j r.a r.b r.c + r.d + SS2 + w'
  let TT2 := GG j r.e r.f r.g + r.h + SS1 + w
  r'.a = TT1 ∧ r'.b = r.a ∧ r'.c = rotl r.b 9 ∧ r'.d = r.c ∧
    r'.e = P0 TT2 ∧ r'.f = r.e ∧ r'.g = rotl r.f 19 ∧ r'.h = r.g

/-! ### Reset, steps, faults -/

/-- R35: every piece of state after reset (`V` is the IV that the spec supplies from general knowledge, log 8), and the outputs
(marked derived within R35). -/
def Obligations.ResetStateValues : Prop :=
  State.reset.V =
    #v[0x7380166F, 0x4914B2B9, 0x172442D7, 0xDA8A0600, 0xA96F30BC, 0x163138AA, 0xE38DEE4D, 0xB0FB0E4E] ∧
  (∀ a, a < 64 → State.reset.BUF.read a = 0x00) ∧
  State.reset.CNT = 0 ∧ State.reset.LEN = 0 ∧ State.reset.PHASE = .absorb ∧ State.reset.FCAUSE = .none ∧
  State.reset.phaseO = 0 ∧ State.reset.fcauseO = 0 ∧ State.reset.digestValidO = 0 ∧ State.reset.digestO = 0

/-- The invariant (R25, R27, R33, R125 and the buffer's canonical form of log 2) holds at reset. -/
def Obligations.InvariantHoldsAtReset : Prop := State.reset.Inv

/-- Every step keeps the invariant: `FCAUSE ≠ 0` exactly in FAULT (R27, marked derived by the spec), in ABSORB
`CNT = (LEN / 8) mod 64` and `LEN mod 8 = 0` (R33, marked derived), in DONE `CNT = 0` (R125, decision D12); the buffer's
canonical form is the model's choice (log 2). -/
def Obligations.EveryStepKeepsTheInvariant : Prop :=
  ∀ s t : State, s.Inv → step s = .next t → t.Inv

/-- Every step of every state answers a next state ("`step` is total and deterministic", R66, marked derived). -/
def Obligations.EveryStepCompletes : Prop :=
  ∀ s : State, ∃ t, step s = .next t

/-- When the word at the port decodes to a command, the step is `exec` of that command at the state with the word taken off
the port (R66, marked derived; the port is the model's choice, log 1). -/
def Obligations.StepRunsTheDecodedCommand : Prop :=
  ∀ (s : State) (cw : CmdWord) (rest : List PortEvent) (i : Instr),
    s.port = .cmd cw :: rest → decode cw = .ok i → step s = exec i { s with port := rest }

/-- "When no command is accepted the state does not change" (R60, one sentence of it; the port is the model's choice, log 1). -/
def Obligations.EmptyPortKeepsTheState : Prop :=
  ∀ s : State, s.port = [] → step s = .next s

/-- A presented 12-bit word is the one the next step accepts, and what waited at the port stays (the model's choice, logs 1
and 6). -/
def Obligations.PresentedWordIsAcceptedNext : Prop :=
  ∀ (s : State) (w : Nat), w < 4096 →
    step (s.withFetchWord 16 w) = acceptWord (BitVec.ofNat 12 w) s ∧
    decodeTableWord 16 w = (decode (BitVec.ofNat 12 w)).toOption

/-- R149, R170: the reset event gives the reset state and its outputs from every state, FAULT is left by reset alone, reset
alone clears `FCAUSE`, and no second fault occurs. -/
def Obligations.ResetIsTheOnlyRecovery : Prop :=
  (∀ (s : State) (rest : List PortEvent), s.port = .rst :: rest →
    ∃ t, step s = .next t ∧ t = { State.reset with port := rest } ∧
      t.phaseO = 0 ∧ t.fcauseO = 0 ∧ t.digestValidO = 0 ∧ t.digestO = 0) ∧
  (∀ s t : State, step s = .next t →
    (s.PHASE = .fault → t.PHASE ≠ .fault →
      ∃ rest, s.port = .rst :: rest ∧ t = { State.reset with port := rest }) ∧
    (s.PHASE = .fault → t.PHASE = .fault → t = { s with port := t.port }) ∧
    (s.FCAUSE ≠ .none → t.FCAUSE = .none → ∃ rest, s.port = .rst :: rest))

/-- R142: an illegal word accepted in ABSORB or DONE raises ILLEGAL_CMD, before the phase rules; with the rule's example. -/
def Obligations.IllegalWordFaults : Prop :=
  (∀ (s : State) (cw : CmdWord) (rest : List PortEvent),
    s.port = .cmd cw :: rest → s.PHASE ≠ .fault → Statements.IllegalBits cw →
    step s = .next { s with port := rest, FCAUSE := .illegalCmd, PHASE := .fault }) ∧
  (∃ t, run [.cmd 0x261, .cmd 0x400] State.reset = .next t ∧ t.PHASE = .fault ∧ t.FCAUSE = .illegalCmd ∧
    t.CNT = 1 ∧ t.LEN = 8 ∧ t.V = IV ∧ t.BUF.read 0 = 0x61)

/-- R148: in FAULT every accepted word, legal or illegal, is ignored, and so is every command. -/
def Obligations.FaultPhaseIgnoresEveryWord : Prop :=
  ∀ s : State, s.PHASE = .fault →
    (∀ (cw : CmdWord) (rest : List PortEvent), s.port = .cmd cw :: rest → step s = .next { s with port := rest }) ∧
    (∀ i : Instr, exec i s = .next s)

/-- R147: a step that enters FAULT changes nothing but `FCAUSE` and `PHASE`, withdraws the digest, and no later command has
any effect. -/
def Obligations.FaultEntryIsPrecise : Prop :=
  ∀ s t : State, s.PHASE ≠ .fault → t.PHASE = .fault → step s = .next t →
    (∃ cw rest c, s.port = .cmd cw :: rest ∧ c ≠ .none ∧ t = { s with port := rest, FCAUSE := c, PHASE := .fault }) ∧
    t.phaseO = 2 ∧ t.fcauseO ≠ 0 ∧ t.digestValidO = 0 ∧ t.digestO = 0 ∧
    (∀ cws : List CmdWord, run (cws.map .cmd) t = .next t)

/-- R146: an accepted word raises the first fault of R146's list that applies, and otherwise raises none. -/
def Obligations.FaultPriority : Prop :=
  ∀ (s : State) (cw : CmdWord) (rest : List PortEvent), s.port = .cmd cw :: rest →
    (∀ c, Statements.RaisesByPriority cw s c →
      step s = .next { s with port := rest, FCAUSE := c, PHASE := .fault }) ∧
    ((∀ c, ¬ Statements.RaisesByPriority cw s c) →
      ∃ t, step s = .next t ∧ t.FCAUSE = s.FCAUSE ∧ (t.PHASE = .fault ↔ s.PHASE = .fault))

/-! ### Decoding -/

/-- R65: the decoder's results, `op` and `imm8` read off the word as a number. -/
def Obligations.DecodeReadsTheOpcodeMap : Prop :=
  ∀ cw : CmdWord,
    let op := cw.toNat / 256
    let imm8 := cw.toNat % 256
    (op = 1 ∧ imm8 = 0 → decode cw = .ok .init) ∧
    (op = 2 → decode cw = .ok (.absorb (BitVec.ofNat 8 imm8))) ∧
    (op = 3 ∧ imm8 = 0 → decode cw = .ok .final) ∧
    (¬ (op = 1 ∧ imm8 = 0) ∧ op ≠ 2 ∧ ¬ (op = 3 ∧ imm8 = 0) → ∃ e, decode cw = .error e)

/-- Words of 95_test_vectors.md T17, as decoded there. -/
def Obligations.DecodeSampleWords : Prop :=
  decode 0x100 = .ok .init ∧ decode 0x200 = .ok (.absorb 0x00) ∧ decode 0x261 = .ok (.absorb 0x61) ∧
  decode 0x2FF = .ok (.absorb 0xFF) ∧ decode 0x300 = .ok .final ∧
  decode 0x101 = .error (.operandNotZero 1 0x01) ∧ decode 0x301 = .error (.operandNotZero 3 0x01) ∧
  decode 0x000 = .error (.reservedOpcode 0) ∧ decode 0xFFF = .error (.reservedOpcode 15)

/-- "Of the 4096 words, 258 are legal (0x100, 0x200 to 0x2FF, 0x300) and 3838 are illegal" (R63, one sentence of it). -/
def Obligations.LegalWordCount : Prop :=
  ((List.range 4096).filter fun n => (decode (BitVec.ofNat 12 n)).toOption.isSome).length = 258 ∧
  ((List.range 4096).filter fun n => (decode (BitVec.ofNat 12 n)).toOption.isNone).length = 3838

/-- Decoding an encoded well-formed command gives it back, with every operand, and every word that decodes is the encoding of
what it decodes to. -/
def Obligations.DecodeEncodeRoundTrip : Prop :=
  (∀ i : Instr, i.wellFormed = true → decode (encode i) = .ok i) ∧
  (∀ (cw : CmdWord) (i : Instr), decode cw = .ok i → i.wellFormed = true ∧ encode i = cw)

/-! ### The commands -/

/-- R100: INIT makes the accumulator fresh, from ABSORB and DONE; `FCAUSE` is unchanged; the digest is withdrawn; the state is
the reset state; in FAULT INIT is ignored; with `imm8 ≠ 0` it is an illegal word; after reset or INIT it changes nothing. -/
def Obligations.InitMakesTheAccumulatorFresh : Prop :=
  (∀ s : State, s.PHASE ≠ .fault →
    ∃ t, exec .init s = .next t ∧ t.V = IV ∧ (∀ a, t.BUF.read a = 0x00) ∧ t.CNT = 0 ∧ t.LEN = 0 ∧
      t.PHASE = .absorb ∧ t.FCAUSE = s.FCAUSE ∧ t.port = s.port ∧ t.digestValidO = 0 ∧ t.digestO = 0 ∧
      (s.FCAUSE = .none → t = { State.reset with port := s.port }) ∧ exec .init t = .next t) ∧
  (∀ s : State, s.PHASE = .fault → exec .init s = .next s) ∧
  (∀ (s : State) (imm8 : Byte) (rest : List PortEvent), imm8 ≠ 0 → s.PHASE ≠ .fault →
    s.port = .cmd (0x1#4 ++ imm8) :: rest →
    step s = .next { s with port := rest, FCAUSE := .illegalCmd, PHASE := .fault }) ∧
  exec .init State.reset = .next State.reset

/-- R101: ABSORB stores its byte at `BUF[CNT]`, adds 8 to `LEN`, and compresses the block that it completes; nothing else
changes, the outputs among it. At `LEN = 2^64 - 8`, in DONE and in FAULT: as the rule says. -/
def Obligations.AbsorbAppendsOneByte : Prop :=
  ∀ (s : State) (b : Byte), s.BUF.wf = true →
    (s.PHASE = .absorb → s.LEN ≠ 0xFFFFFFFFFFFFFFF8 →
      ∃ t, exec (.absorb b) s = .next t ∧ t.LEN = s.LEN + 8 ∧
        (∀ a, t.BUF.read a = if a = s.CNT.val then b else s.BUF.read a) ∧
        (s.CNT.val < 63 → t.CNT.val = s.CNT.val + 1 ∧ t.V = s.V) ∧
        (s.CNT.val = 63 → t.CNT = 0 ∧
          t.V = compress s.V (Vector.ofFn fun k => if k.val = 63 then b else s.BUF.read k.val)) ∧
        t.PHASE = .absorb ∧ t.FCAUSE = s.FCAUSE ∧ t.port = s.port ∧
        t.phaseO = s.phaseO ∧ t.fcauseO = s.fcauseO ∧ t.digestValidO = s.digestValidO ∧ t.digestO = s.digestO) ∧
    (s.PHASE = .absorb → s.LEN = 0xFFFFFFFFFFFFFFF8 →
      exec (.absorb b) s = .next { s with FCAUSE := .lenOverflow, PHASE := .fault }) ∧
    (s.PHASE = .done → exec (.absorb b) s = .next { s with FCAUSE := .absorbAfterDone, PHASE := .fault }) ∧
    (s.PHASE = .fault → exec (.absorb b) s = .next s)

/-- The ABSORB performed at `LEN = 2^64 - 8` changes `PHASE` and `FCAUSE` only, whatever `CNT` is, and only there does an ABSORB
in phase ABSORB fault. That it does not fault at the larger values of `LEN`, which no run reaches, is the model's choice (log 9,
DEDUCED): it follows R101's `if LEN = 2^64 - 8`, where R145's "`LEN + 8` would not fit in 64 bits" would fault. For the states that
meet the invariant AbsorbFaultsExactlyWhenLengthDoesNotFit states R145. -/
def Obligations.AbsorbAtTheLengthLimitFaults : Prop :=
  ∀ (s : State) (b : Byte), s.PHASE = .absorb →
    (s.LEN.toNat = 2 ^ 64 - 8 →
      ∃ t, exec (.absorb b) s = .next t ∧ t.PHASE = .fault ∧ t.FCAUSE = .lenOverflow ∧
        t.LEN = s.LEN ∧ t.CNT = s.CNT ∧ t.BUF = s.BUF ∧ t.V = s.V ∧ t.port = s.port) ∧
    (s.LEN.toNat ≠ 2 ^ 64 - 8 → ∃ t, exec (.absorb b) s = .next t ∧ t.PHASE = .absorb ∧ t.FCAUSE = s.FCAUSE)

/-- R104, the chunk form: as UPDATE's bytes, a chunk that fits is absorbed whole; of one with `LEN + 8·n ≥ 2^64` the bytes
before the offending one are absorbed and the offending one faults, so `LEN` never wraps. -/
def Obligations.UpdateStopsAtTheLengthLimit : Prop :=
  ∀ (s : State) (data : List Byte), s.Inv → s.PHASE = .absorb →
    (s.LEN.toNat + 8 * data.length < 2 ^ 64 →
      ∃ t, run (commandEvents (updateCommands data)) s = .next t ∧ t.PHASE = .absorb ∧
        t.LEN.toNat = s.LEN.toNat + 8 * data.length) ∧
    (s.LEN.toNat + 8 * data.length ≥ 2 ^ 64 →
      ∃ t, run (commandEvents (updateCommands (data.take ((2 ^ 64 - 8 - s.LEN.toNat) / 8)))) s = .next t ∧
        t.PHASE = .absorb ∧ t.LEN.toNat = 2 ^ 64 - 8 ∧
        run (commandEvents (updateCommands data)) s = .next { t with FCAUSE := .lenOverflow, PHASE := .fault })

/-- R143, R144: FINAL and ABSORB in DONE fault with causes 2 and 3 and have no other effect; with the rules' examples. -/
def Obligations.CommandsAfterDoneFault : Prop :=
  (∀ (s : State) (b : Byte), s.PHASE = .done →
    exec .final s = .next { s with FCAUSE := .finalAfterDone, PHASE := .fault } ∧
    exec (.absorb b) s = .next { s with FCAUSE := .absorbAfterDone, PHASE := .fault }) ∧
  (∃ t u, run [.cmd 0x300] State.reset = .next t ∧ t.digestValidO = 1 ∧
    run [.cmd 0x300, .cmd 0x300] State.reset = .next u ∧ u.PHASE = .fault ∧ u.FCAUSE = .finalAfterDone ∧
    u.digestValidO = 0 ∧ u.digestO = 0 ∧ u.V = t.V) ∧
  (∃ u, run [.cmd 0x261, .cmd 0x300, .cmd 0x262] State.reset = .next u ∧ u.PHASE = .fault ∧
    u.FCAUSE = .absorbAfterDone ∧ u.LEN = 8)

/-- R48, R121: FINAL compresses the padded block, or the two, of R48's table; `BUF` is left holding the last of them, `CNT` 0,
`LEN` unchanged, the digest published; in DONE it raises cause 2, in FAULT it is ignored, with `imm8 ≠ 0` it is an illegal
word. -/
def Obligations.FinalPadsAndCompresses : Prop :=
  (∀ s : State, s.BUF.wf = true → s.PHASE = .absorb →
    ∃ t, exec .final s = .next t ∧
      (s.CNT.val ≤ 55 → t.V = compress s.V (Statements.onlyBlock s) ∧
        ∀ a (h : a < 64), t.BUF.read a = (Statements.onlyBlock s)[a]) ∧
      (56 ≤ s.CNT.val → t.V = compress (compress s.V (Statements.firstOfTwo s)) (Statements.secondOfTwo s) ∧
        ∀ a (h : a < 64), t.BUF.read a = (Statements.secondOfTwo s)[a]) ∧
      t.CNT = 0 ∧ t.LEN = s.LEN ∧ t.PHASE = .done ∧ t.FCAUSE = s.FCAUSE ∧ t.port = s.port ∧
      t.phaseO = 1 ∧ t.fcauseO = s.fcauseO ∧ t.digestValidO = 1 ∧ t.digestO = concatWords t.V) ∧
  (∀ s : State, s.PHASE = .done → exec .final s = .next { s with FCAUSE := .finalAfterDone, PHASE := .fault }) ∧
  (∀ s : State, s.PHASE = .fault → exec .final s = .next s) ∧
  (∀ (s : State) (imm8 : Byte) (rest : List PortEvent), imm8 ≠ 0 → s.PHASE ≠ .fault →
    s.port = .cmd (0x3#4 ++ imm8) :: rest →
    step s = .next { s with port := rest, FCAUSE := .illegalCmd, PHASE := .fault })

/-- R42: after FINAL `BUF[56+k] = LEN[63-8k : 56-8k]`; as words of the last block, `W[14]` and `W[15]` are the halves of
`LEN` (marked derived within R42); with the rule's example. -/
def Obligations.LengthSuffixIsBigEndian : Prop :=
  (∀ s : State, s.BUF.wf = true → s.PHASE = .absorb →
    ∃ t, exec .final s = .next t ∧
      (∀ k, k < 8 → t.BUF.read (56 + k) = s.LEN.extractLsb' (56 - 8 * k) 8) ∧
      (blockWords (t.BUF.bytes 0 64))[14] = s.LEN.extractLsb' 32 32 ∧
      (blockWords (t.BUF.bytes 0 64))[15] = s.LEN.extractLsb' 0 32) ∧
  lengthSuffix 24 = #v[0x00, 0x00, 0x00, 0x00, 0x00, 0x00, 0x00, 0x18]

/-! ### Outputs and storage -/

/-- R28: the four outputs as functions of the state; the words and the bytes of `digest_o`. -/
def Obligations.OutputsShowTheState : Prop :=
  ∀ s : State,
    (s.phaseO = 0 ↔ s.PHASE = .absorb) ∧ (s.phaseO = 1 ↔ s.PHASE = .done) ∧ (s.phaseO = 2 ↔ s.PHASE = .fault) ∧
    (s.fcauseO = 0 ↔ s.FCAUSE = .none) ∧ (s.fcauseO = 1 ↔ s.FCAUSE = .illegalCmd) ∧
    (s.fcauseO = 2 ↔ s.FCAUSE = .finalAfterDone) ∧ (s.fcauseO = 3 ↔ s.FCAUSE = .absorbAfterDone) ∧
    (s.fcauseO = 4 ↔ s.FCAUSE = .lenOverflow) ∧
    (s.digestValidO = if s.PHASE = .done then 1 else 0) ∧
    (s.PHASE = .done →
      (∀ i (h : i < 8), s.digestO.extractLsb' (224 - 32 * i) 32 = s.V[i]) ∧
      (∀ k (h : k < 32), s.digestO.extractLsb' (248 - 8 * k) 8 = (digestBytes s.V)[k])) ∧
    (s.PHASE ≠ .done → s.digestO = 0)

/-- R43: digest byte `4i + k` is `V[i][31-8k : 24-8k]`. -/
def Obligations.DigestBytesAreBigEndian : Prop :=
  ∀ (V : HashWords) (i k : Nat) (hi : i < 8) (hk : k < 4),
    (digestBytes V)[4 * i + k] = V[i].extractLsb' (24 - 8 * k) 8

/-- R124: after FINAL the digest is the big-endian serialisation of `V`; it stays on `digest_o` with `digest_valid_o = 1`
until INIT, reset or a fault. -/
def Obligations.DigestStaysUntilInitResetOrFault : Prop :=
  (∀ s : State, s.PHASE = .absorb → ∃ t, exec .final s = .next t ∧ t.digestValidO = 1 ∧
    ∀ (i k : Nat) (hi : i < 8) (hk : k < 4),
      (digestBytes t.V)[4 * i + k] = t.V[i].extractLsb' (24 - 8 * k) 8 ∧
      t.digestO.extractLsb' (248 - 8 * (4 * i + k)) 8 = t.V[i].extractLsb' (24 - 8 * k) 8) ∧
  (∀ s t : State, s.PHASE = .done → step s = .next t →
    (t.digestO = s.digestO ∧ t.digestValidO = 1 ∧ t.PHASE = .done) ∨
    (∃ rest, s.port = .rst :: rest) ∨ (∃ rest, s.port = .cmd 0x100 :: rest) ∨ t.PHASE = .fault)

/-- Within 0 to 63 (R52, marked derived by the spec), `MemWrite` stores byte `k` of `v` at `addr + k` and leaves every other
byte, and `MemRead` returns the bytes in order. -/
def Obligations.BufferAccessWithinBounds : Prop :=
  ∀ (m : Memory) (addr n : Nat) (v : Vector Byte n), m.wf = true → addr + n ≤ 64 →
    (∃ m', memWrite m addr v = .ok m' ∧ m'.wf = true ∧
      (∀ k (h : k < n), m'.read (addr + k) = v[k]) ∧
      (∀ a, (a < addr ∨ addr + n ≤ a) → m'.read a = m.read a) ∧
      memRead m' addr n = .ok v) ∧
    (∃ r : Vector Byte n, memRead m addr n = .ok r ∧ ∀ k (h : k < n), r[k] = m.read (addr + k))

/-- An access outside `BUF` stops the model: the model's choice among what R52 allows ("A model may make an out-of-bound call
an error; none is reachable"; log 2). -/
def Obligations.BufferAccessOutOfBoundsStops : Prop :=
  ∀ (m : Memory) (addr n : Nat) (v : Vector Byte n), 64 < addr + n →
    memWrite m addr v = .error .bufOutOfRange ∧ memRead m addr n = .error .bufOutOfRange

/-! ### The Compression Engine -/

/-- R80: bit `i` of `x` becomes bit `(i + n) mod 32` of `rotl(x, n)`; the identity at 0; rotations compose; the rule's corner
cases and examples. The spec supplies the definition from general knowledge (log 8). -/
def Obligations.RotlMovesBits : Prop :=
  (∀ (x : Word) (n : Fin 32) (i : Nat), i < 32 →
    (rotl x n).getLsbD ((i + n.val) % 32) = x.getLsbD i) ∧
  (∀ (x : Word) (n : Fin 32), n.val ≠ 0 → rotl x n = (x <<< n.val) ||| (x >>> (32 - n.val))) ∧
  (∀ x : Word, rotl x 0 = x) ∧
  (∀ (x : Word) (m n : Fin 32), rotl (rotl x m) n = rotl x (Fin.ofNat 32 ((m.val + n.val) % 32))) ∧
  (∀ n : Fin 32, rotl 0 n = 0 ∧ rotl 0xFFFFFFFF n = 0xFFFFFFFF) ∧
  rotl 0x12345678 12 = 0x45678123 ∧ rotl 0x80000000 1 = 0x00000001

/-- R82, R83: `P0` and `P1`, linear over exclusive or (marked derived within R82), with the rules' corner cases and examples. -/
def Obligations.PermutationsAreLinear : Prop :=
  (∀ x y : Word, P0 x = x ^^^ rotl x 9 ^^^ rotl x 17 ∧ P1 x = x ^^^ rotl x 15 ^^^ rotl x 23 ∧
    P0 (x ^^^ y) = P0 x ^^^ P0 y ∧ P1 (x ^^^ y) = P1 x ^^^ P1 y) ∧
  P0 0 = 0 ∧ P0 0xFFFFFFFF = 0xFFFFFFFF ∧ P0 0x00000001 = 0x00020201 ∧ P0 0x80000000 = 0x80010100 ∧
  P0 0x12345678 = 0xD6688234 ∧
  P1 0 = 0 ∧ P1 0xFFFFFFFF = 0xFFFFFFFF ∧ P1 0x00000001 = 0x00808001 ∧ P1 0x80000000 = 0x80404000 ∧
  P1 0x12345678 = 0x05014549

/-- R84: `K_j = rotl(T_j, j mod 32)` for every `j`, the 64 values of the rule's table (marked derived within R84), and
`K_j = K_(j-32)` for `j ≥ 48`. -/
def Obligations.RoundConstantTable : Prop :=
  (∀ j : Fin 64, roundT j = if j.val < 16 then 0x79CC4519 else 0x7A879D8A) ∧
  (∀ j : Fin 64, roundK j = rotl (roundT j) (Fin.ofNat 32 (j.val % 32))) ∧
  (∀ j : Fin 64, Statements.roundTable[j.val]? = some (roundK j)) ∧
  (∀ j : Fin 64, 48 ≤ j.val → roundK j = roundK (j - 32))

/-- R85, R86: `FF_j` and `GG_j` bit by bit, parity up to `j = 15`, majority and choice from `j = 16`, with the rules' corner
cases and examples. -/
def Obligations.BooleanFunctionsBitwise : Prop :=
  (∀ (j : Fin 64) (x y z : Word) (i : Nat), i < 32 →
    (FF j x y z).getLsbD i =
      (if j.val ≤ 15 then xor (xor (x.getLsbD i) (y.getLsbD i)) (z.getLsbD i)
       else (x.getLsbD i && y.getLsbD i) || (x.getLsbD i && z.getLsbD i) || (y.getLsbD i && z.getLsbD i)) ∧
    (GG j x y z).getLsbD i =
      (if j.val ≤ 15 then xor (xor (x.getLsbD i) (y.getLsbD i)) (z.getLsbD i)
       else if x.getLsbD i then y.getLsbD i else z.getLsbD i)) ∧
  (∀ (j : Fin 64) (x y z : Word), FF j x x x = x ∧ FF j 0 0 0 = 0 ∧
    (j.val < 16 → GG j x y z = FF j x y z) ∧
    (16 ≤ j.val → GG j 0 y z = z ∧ GG j 0xFFFFFFFF y z = y)) ∧
  FF 15 0xF0F0F0F0 0xCCCCCCCC 0xAAAAAAAA = 0x96969696 ∧ FF 16 0xF0F0F0F0 0xCCCCCCCC 0xAAAAAAAA = 0xE8E8E8E8 ∧
  GG 15 0xF0F0F0F0 0xCCCCCCCC 0xAAAAAAAA = 0x96969696 ∧ GG 16 0xF0F0F0F0 0xCCCCCCCC 0xAAAAAAAA = 0xCACACACA

/-- R95 (marked derived by the spec): the equivalent forms of majority and choice, and the constants as a register rotated by
one each round and reloaded with `rotl(T1, 16)` at `j = 16`. -/
def Obligations.EquivalentForms : Prop :=
  (∀ (j : Fin 64) (x y z : Word), 16 ≤ j.val →
    FF j x y z = (x &&& y) ^^^ (x &&& z) ^^^ (y &&& z) ∧ FF j x y z = (x &&& y) ||| ((x ||| y) &&& z) ∧
    GG j x y z = (x &&& y) ^^^ (~~~x &&& z) ∧ GG j x y z = z ^^^ (x &&& (y ^^^ z))) ∧
  roundK 0 = T0 ∧ roundK 16 = rotl T1 16 ∧
  (∀ j : Fin 64, j.val < 63 → j.val ≠ 15 → roundK (j + 1) = rotl (roundK j) 1)

/-- R41: the block's words are big-endian, as numbers; with the rule's example. -/
def Obligations.BlockWordsAreBigEndian : Prop :=
  (∀ (B : Block) (i : Nat) (h : i < 16),
    ((blockWords B)[i]).toNat =
      B[4 * i].toNat * 2 ^ 24 + B[4 * i + 1].toNat * 2 ^ 16 + B[4 * i + 2].toNat * 2 ^ 8 + B[4 * i + 3].toNat) ∧
  be32 0x61 0x62 0x63 0x80 = 0x61626380

/-- R88, R89: `W[16..67]` by the rule's recurrence over the words themselves, linear over exclusive or in the block and zero
for the zero block (marked derived within R88), and `W'[j] = W[j] ⊕ W[j+4]`; `W[0..15]` are the block's words (R87). -/
def Obligations.MessageExpansion : Prop :=
  (∀ (B : Block) (i : Nat) (h : i < 16),
    (schedule B)[i] = be32 B[4 * i] B[4 * i + 1] B[4 * i + 2] B[4 * i + 3]) ∧
  (∀ (B : Block) (j : Nat) (h : 16 ≤ j ∧ j < 68),
    (schedule B)[j] =
      P1 ((schedule B)[j - 16] ^^^ (schedule B)[j - 9] ^^^ rotl (schedule B)[j - 3] 15) ^^^
        rotl (schedule B)[j - 13] 7 ^^^ (schedule B)[j - 6]) ∧
  (∀ (B : Block) (j : Nat) (h : j < 64),
    (secondSchedule (schedule B))[j] = (schedule B)[j] ^^^ (schedule B)[j + 4]) ∧
  (∀ (B C : Block) (j : Nat) (h : j < 68),
    (schedule (Vector.zipWith (· ^^^ ·) B C))[j] = (schedule B)[j] ^^^ (schedule C)[j]) ∧
  (∀ (j : Nat) (h : j < 68), (schedule (Vector.replicate 64 0x00))[j] = 0)

/-- R90, R91, R92, R93: `compress` starts the registers from `S`, applies R91's formula for `j = 0, 1, …, 63`, and exclusive-ors
the registers after round 63 into `S`. -/
def Obligations.CompressIsSixtyFourRounds : Prop :=
  ∀ (S : HashWords) (B : Block), ∃ r : Nat → Working,
    r 0 = ⟨S[0], S[1], S[2], S[3], S[4], S[5], S[6], S[7]⟩ ∧
    (∀ (j : Nat) (h : j < 64),
      Statements.RoundFormula ⟨j, h⟩ (schedule B)[j] (secondSchedule (schedule B))[j] (r j) (r (j + 1))) ∧
    compress S B =
      #v[S[0] ^^^ (r 64).a, S[1] ^^^ (r 64).b, S[2] ^^^ (r 64).c, S[3] ^^^ (r 64).d,
         S[4] ^^^ (r 64).e, S[5] ^^^ (r 64).f, S[6] ^^^ (r 64).g, S[7] ^^^ (r 64).h]

/-! ### Whole-machine rules -/

/-- "It is written only by: INIT, the block flush inside ABSORB, FINAL and reset; the value written by ABSORB and FINAL is
always `compress(V, block)`" (R21, one sentence of it). -/
def Obligations.HashStateWriters : Prop :=
  ∀ s t : State, step s = .next t →
    t.V = s.V ∨
    (t.V = IV ∧ ∃ rest, s.port = .rst :: rest ∨ s.port = .cmd 0x100 :: rest) ∨
    (s.PHASE = .absorb ∧ s.CNT.val = 63 ∧ (∃ (b : Byte) (rest : List PortEvent), s.port = .cmd (0x2#4 ++ b) :: rest) ∧
      ∃ B, t.V = compress s.V B) ∨
    (s.PHASE = .absorb ∧ (∃ rest, s.port = .cmd 0x300 :: rest) ∧
      ((s.CNT.val ≤ 55 ∧ ∃ B, t.V = compress s.V B) ∨
       (56 ≤ s.CNT.val ∧ ∃ B B', t.V = compress (compress s.V B) B')))

/-- `LEN` is changed by an ABSORB, which adds 8 to it as a number, and by INIT and reset, which clear it, and so never wraps
(R25 and R104, sentences of them). -/
def Obligations.LengthNeverWraps : Prop :=
  ∀ s t : State, s.Inv → step s = .next t →
    t.LEN = s.LEN ∨
    (t.LEN.toNat = s.LEN.toNat + 8 ∧ ∃ (b : Byte) (rest : List PortEvent), s.port = .cmd (0x2#4 ++ b) :: rest) ∨
    (t.LEN = 0 ∧ ∃ rest, s.port = .rst :: rest ∨ s.port = .cmd 0x100 :: rest)

/-- States that differ in dead bytes only step to states that differ in dead bytes only, with the same outputs: dead bytes are
unobservable (R23, marked derived by the spec; 93_implementation_defined.md U12). -/
def Obligations.DeadBytesAreUnobservable : Prop :=
  ∀ s u t : State, s.BUF.wf = true → u.BUF.wf = true → s.AlikeButDead u → step s = .next t →
    ∃ v, step u = .next v ∧ t.AlikeButDead v ∧
      v.phaseO = t.phaseO ∧ v.fcauseO = t.fcauseO ∧ v.digestValidO = t.digestValidO ∧ v.digestO = t.digestO

/-- ABSORB extends the message that the state holds by its byte (R106's induction step, marked derived by the spec). -/
def Obligations.AbsorbExtendsThePrefix : Prop :=
  ∀ (s : State) (M : List Byte) (b : Byte), s.HoldsPrefix M → M.length < 2 ^ 61 - 1 →
    ∃ t, exec (.absorb b) s = .next t ∧ t.HoldsPrefix (M ++ [b])

/-- The state after INIT and the bytes of any message of at most `2^61 - 1` bytes holds that message (R106, marked derived by
the spec). -/
def Obligations.PrefixOfAnyMessage : Prop :=
  ∀ (s : State) (M : List Byte), s.PHASE ≠ .fault → M.length ≤ 2 ^ 61 - 1 →
    ∃ t, run (commandEvents (newCommands ++ updateCommands M)) s = .next t ∧ t.HoldsPrefix M ∧ t.FCAUSE = s.FCAUSE

/-- The chunk form and the ABSORB beats agree in `V`, `CNT`, `LEN` and the live bytes of `BUF` (R103, marked derived by the
spec). -/
def Obligations.ChunkEqualsItsBytes : Prop :=
  ∀ (s u : State) (data : List Byte), s.BUF.wf = true → updateChunk data s = some u →
    ∃ t, run (commandEvents (updateCommands data)) s = .next t ∧
      t.V = u.V ∧ t.CNT = u.CNT ∧ t.LEN = u.LEN ∧ (∀ a, a < t.CNT.val → t.BUF.read a = u.BUF.read a) ∧
      t.PHASE = .absorb ∧ u.PHASE = .absorb ∧ t.FCAUSE = u.FCAUSE

/-- However a message is cut into chunks, the chunk form followed by FINAL gives the hash of the whole message (R127's chunking
invariance, marked derived by the spec; 95_test_vectors.md V5). -/
def Obligations.ChunkingNeverAffectsTheDigest : Prop :=
  ∀ chunks : List (List Byte), chunks.flatten.length ≤ 2 ^ 61 - 1 →
    ∃ u t, chunks.foldlM (fun s data => updateChunk data s) State.reset = some u ∧ exec .final u = .next t ∧
      t.digestValidO = 1 ∧ digestBytes t.V = hashOf chunks.flatten

/-- The commands of HASH give the closed form of the whole hash, from every state that is not in FAULT; directly after reset
the INIT may be omitted (R126, R171, marked derived by the spec). -/
def Obligations.HashIsTheClosedForm : Prop :=
  ∀ M : List Byte, M.length ≤ 2 ^ 61 - 1 →
    (∀ s : State, s.PHASE ≠ .fault →
      ∃ t, run (commandEvents (hashCommands M)) s = .next t ∧ t.PHASE = .done ∧ t.digestValidO = 1 ∧
        digestBytes t.V = hashOf M ∧ t.CNT = 0 ∧ t.LEN.toNat = 8 * M.length ∧ t.FCAUSE = s.FCAUSE) ∧
    (∃ t, run (commandEvents (updateCommands M ++ [.final])) State.reset = .next t ∧ t.digestValidO = 1 ∧
      digestBytes t.V = hashOf M)

/-- The padded message is `floor((n + 8) / 64) + 1` blocks (R123, marked derived by the spec), and the number of zero bytes is
that of R120. -/
def Obligations.PaddedLength : Prop :=
  ∀ M : List Byte,
    (padded M).length = 64 * ((M.length + 8) / 64 + 1) ∧
    zeroCount M.length = (if M.length % 64 ≤ 55 then 55 - M.length % 64 else 119 - M.length % 64)

/-- As many steps as there are events at the head of the port perform those events in order and leave what waits behind them;
that the events stand in a queue at the port is the model's choice (log 1). A state's result is a digest exactly in DONE, and
then the 32 bytes of `digest_o`. R180's own clauses are RunHasADigestExactlyInDone. -/
def Obligations.RunAppliesEventsInOrder : Prop :=
  (∀ (es rest : List PortEvent) (s : State),
    Sys2Proof.core.run es.length { s with port := es ++ rest } = run es { s with port := rest }) ∧
  (∀ s : State,
    (∀ d : Digest, s.result = .digest d ↔
      s.PHASE = .done ∧ ∀ k (h : k < 32), d[k] = s.digestO.extractLsb' (248 - 8 * k) 8) ∧
    ((∃ c, s.result = .failed c) ↔ s.PHASE = .fault) ∧
    (s.result = .unfinished ↔ s.PHASE = .absorb))

/-! ### Host notation and vectors -/

/-- R67's table and R68's expansions as words, and out-of-range operands refused. -/
def Obligations.AssemblerWords : Prop :=
  assemble .init = some [0x100] ∧ assemble .final = some [0x300] ∧ assemble .new = some [0x100] ∧
  (∀ b, b < 256 → assemble (.absorb b) = some [BitVec.ofNat 12 (0x200 + b)]) ∧
  (∀ w, w < 4096 → assemble (.word w) = some [BitVec.ofNat 12 w]) ∧
  (∀ bs : List Nat, (∀ b ∈ bs, b < 256) →
    assemble (.update bs) = some (bs.map fun b => BitVec.ofNat 12 (0x200 + b)) ∧
    assemble (.hash bs) = some (0x100 :: (bs.map fun b => BitVec.ofNat 12 (0x200 + b)) ++ [0x300])) ∧
  (∀ b, 256 ≤ b → assemble (.absorb b) = none) ∧ (∀ w, 4096 ≤ w → assemble (.word w) = none)

/-- 95_test_vectors.md V1 and V2: the digests of "abc" and of the empty message. -/
def Obligations.AbcAndEmptyDigests : Prop :=
  (∃ t, run (commandEvents (hashCommands [0x61, 0x62, 0x63])) State.reset = .next t ∧ t.digestValidO = 1 ∧
    t.digestO = 0x66c7f0f462eeedd9d1f2d46bdc10e4e24167c4875cf2f7a2297da02b8f4ba8e0#256) ∧
  (∃ t, run (commandEvents (hashCommands [])) State.reset = .next t ∧ t.digestValidO = 1 ∧
    t.digestO = 0x1ab21d8355cfa17f8e61194831e81a8f22bec8c728fefb747ed035eb5082aa2b#256)

/-! ### The length limit under the invariant, and the end of a run -/

/-- R145, in every state that meets the invariant: an ABSORB in phase ABSORB raises LEN_OVERFLOW exactly when `LEN + 8` would not
fit in 64 bits, which is exactly `LEN = 2^64 - 8`, and then changes nothing but `PHASE` and `FCAUSE`. -/
def Obligations.AbsorbFaultsExactlyWhenLengthDoesNotFit : Prop :=
  ∀ (s : State) (b : Byte), s.Inv → s.PHASE = .absorb →
    (2 ^ 64 ≤ s.LEN.toNat + 8 ↔ s.LEN = 0xFFFFFFFFFFFFFFF8) ∧
    (2 ^ 64 ≤ s.LEN.toNat + 8 →
      exec (.absorb b) s = .next { s with FCAUSE := .lenOverflow, PHASE := .fault }) ∧
    (s.LEN.toNat + 8 < 2 ^ 64 →
      ∃ t, exec (.absorb b) s = .next t ∧ t.PHASE = .absorb ∧ t.FCAUSE = s.FCAUSE ∧
        t.LEN.toNat = s.LEN.toNat + 8)

/-- R180: a run, a finite sequence of resets and accepted words, has a last state, which is that of its events applied in order;
it has produced a digest exactly when that state is in DONE, and the digest is then the 32 bytes of `digest_o`; in FAULT it has
gone wrong, in ABSORB it is unfinished, and neither has a digest. -/
def Obligations.RunHasADigestExactlyInDone : Prop :=
  ∀ (es : List PortEvent) (s : State), run [] s = .next s ∧
    ∃ t, run es s = .next t ∧
      (∀ e : PortEvent, run (es ++ [e]) s = performEvent e t) ∧
      (∀ d : Digest, t.result = .digest d ↔
        t.PHASE = .done ∧ ∀ k (h : k < 32), d[k] = t.digestO.extractLsb' (248 - 8 * k) 8) ∧
      ((∃ c, t.result = .failed c) ↔ t.PHASE = .fault) ∧
      (t.result = .unfinished ↔ t.PHASE = .absorb)
end

