-- ==== Sys2Proof/Laws/Memory.lean ====
section
/-! SUPPORT. The block buffer's laws: a write is read back and leaves every other byte alone, every operation keeps the
canonical form, and canonical memories that read alike are equal. -/

namespace Sys2Proof.Machine.Memory

@[simp] theorem read_nil (a : Nat) : read [] a = unlisted := rfl
@[simp] theorem read_cleared (a : Nat) : read cleared a = unlisted := rfl
@[simp] theorem wf_cleared : wf cleared = true := rfl

/-- What the canonical form of a listed memory says. -/
theorem wf_cons {a : Nat} {b : Byte} {m : Memory} :
    wf ((a, b) :: m) = true ↔ a < 64 ∧ b ≠ unlisted ∧ (∀ c ∈ m, a < c.1) ∧ wf m = true := by
  simp [wf, and_assoc, List.all_eq_true]

theorem read_of_all_above {m : Memory} {a : Nat} (h : ∀ c ∈ m, a < c.1) : m.read a = unlisted := by
  induction m with
  | nil => rfl
  | cons c m ih =>
    obtain ⟨a', b⟩ := c
    have ha : a < a' := h (a', b) (by simp)
    simp only [read, if_neg (Nat.ne_of_gt ha)]
    exact ih fun c hc => h c (by simp [hc])

theorem read_put {m : Memory} {a : Nat} {b : Byte} (h : ∀ c ∈ m, a < c.1) (x : Nat) :
    (put a b m).read x = if x = a then b else m.read x := by
  unfold put
  by_cases hb : b = unlisted
  · by_cases hx : x = a
    · subst hx; simp [hb, read_of_all_above h]
    · simp [hb, hx]
  · by_cases hx : x = a
    · subst hx; simp [hb, read]
    · simp [hb, hx, read, Ne.symm hx]

/-- A write is read back, and every other byte is as before. -/
theorem read_write {m : Memory} (hm : m.wf = true) (a : Nat) (b : Byte) (x : Nat) :
    (m.write a b).read x = if x = a then b else m.read x := by
  induction m with
  | nil => simpa [write] using read_put (m := []) (a := a) (b := b) (by simp) x
  | cons c m ih =>
    obtain ⟨a', b'⟩ := c
    obtain ⟨-, -, habove, hwf⟩ := wf_cons.1 hm
    unfold write
    split
    · next hlt =>
      refine read_put ?_ x
      intro c hc
      rcases List.mem_cons.1 hc with rfl | hc
      · exact hlt
      · exact hlt.trans (habove c hc)
    · split
      · next _ heq =>
        subst heq
        rw [read_put habove]
        by_cases hx : x = a <;> simp [hx, read]
        intro h; exact absurd h.symm hx
      · next hne =>
        simp only [read, ih hwf]
        by_cases hx : a' = x
        · subst hx; simp [Ne.symm hne]
        · simp [hx]

theorem mem_write {m : Memory} {a : Nat} {b : Byte} {c : Host.Cell} (h : c ∈ m.write a b) : c = (a, b) ∨ c ∈ m := by
  induction m with
  | nil =>
    simp only [write, put] at h
    split at h <;> simp_all
  | cons c' m ih =>
    obtain ⟨a', b'⟩ := c'
    simp only [write, put] at h
    split_ifs at h <;> simp only [List.mem_cons] at h ⊢ <;> tauto

theorem wf_put {m : Memory} {a : Nat} (b : Byte) (ha : a < 64) (h : ∀ c ∈ m, a < c.1) (hm : m.wf = true) :
    (put a b m).wf = true := by
  unfold put
  split
  · exact hm
  · next hb => exact wf_cons.2 ⟨ha, hb, h, hm⟩

/-- A write keeps the canonical form. -/
theorem wf_write {m : Memory} (hm : m.wf = true) {a : Nat} (ha : a < 64) (b : Byte) : (m.write a b).wf = true := by
  induction m with
  | nil => exact wf_put b ha (by simp) rfl
  | cons c m ih =>
    obtain ⟨a', b'⟩ := c
    obtain ⟨ha', hb', habove, hwf⟩ := wf_cons.1 hm
    unfold write
    split
    · next hlt =>
      refine wf_put b ha ?_ hm
      intro c hc
      rcases List.mem_cons.1 hc with rfl | hc
      · exact hlt
      · exact hlt.trans (habove c hc)
    · split
      · next _ heq => subst heq; exact wf_put b ha habove hwf
      · next hge hne =>
        refine wf_cons.2 ⟨ha', hb', ?_, ih hwf⟩
        intro c hc
        rcases mem_write hc with rfl | hc
        · simp only; omega
        · exact habove c hc

/-- Storing bytes within the buffer keeps the canonical form. -/
theorem wf_writeBytes {m : Memory} (hm : m.wf = true) {addr : Nat} {bs : List Byte} (h : addr + bs.length ≤ 64) :
    (m.writeBytes addr bs).wf = true := by
  induction bs generalizing m addr with
  | nil => exact hm
  | cons b bs ih =>
    simp only [List.length_cons] at h
    exact ih (wf_write hm (by omega) b) (by omega)

/-- Stored bytes are read back, and every byte outside them is as before. -/
theorem read_writeBytes {m : Memory} (hm : m.wf = true) {addr : Nat} {bs : List Byte} (h : addr + bs.length ≤ 64)
    (x : Nat) : (m.writeBytes addr bs).read x =
      if addr ≤ x ∧ x < addr + bs.length then bs.getD (x - addr) unlisted else m.read x := by
  induction bs generalizing m addr with
  | nil => simp only [writeBytes, List.length_nil]; rw [if_neg (by omega)]
  | cons b bs ih =>
    simp only [List.length_cons] at h ⊢
    rw [writeBytes, ih (wf_write hm (by omega) b) (by omega), read_write hm]
    by_cases hx : x = addr
    · subst hx; simp
    · rw [if_neg hx]
      by_cases hin : addr + 1 ≤ x ∧ x < addr + 1 + bs.length
      · rw [if_pos hin, if_pos (by omega), show x - addr = (x - (addr + 1)) + 1 by omega, List.getD_cons_succ]
      · rw [if_neg hin, if_neg (by omega)]

/-- Canonical memories that read alike are equal: equal memories are equal data. -/
theorem eq_of_read {m m' : Memory} (hm : m.wf = true) (hm' : m'.wf = true) (h : ∀ a, m.read a = m'.read a) : m = m' := by
  induction m generalizing m' with
  | nil =>
    cases m' with
    | nil => rfl
    | cons c m' =>
      obtain ⟨a, b⟩ := c
      have := h a
      simp only [read, if_true] at this
      exact absurd this.symm (wf_cons.1 hm').2.1
  | cons c m ih =>
    obtain ⟨a, b⟩ := c
    obtain ⟨-, hb, habove, hwf⟩ := wf_cons.1 hm
    cases m' with
    | nil =>
      have := h a
      simp only [read, if_true] at this
      exact absurd this hb
    | cons c' m' =>
      obtain ⟨a', b'⟩ := c'
      obtain ⟨-, hb', habove', hwf'⟩ := wf_cons.1 hm'
      have haa : a = a' := by
        rcases Nat.lt_trichotomy a a' with hlt | heq | hgt
        · have h1 := h a
          have h2 : read ((a', b') :: m') a = unlisted := by
            refine read_of_all_above fun c hc => ?_
            rcases List.mem_cons.1 hc with rfl | hc
            · exact hlt
            · exact hlt.trans (habove' c hc)
          rw [h2] at h1
          simp only [read, if_true] at h1
          exact absurd h1 hb
        · exact heq
        · have h1 := h a'
          have h2 : read ((a, b) :: m) a' = unlisted := by
            refine read_of_all_above fun c hc => ?_
            rcases List.mem_cons.1 hc with rfl | hc
            · exact hgt
            · exact hgt.trans (habove c hc)
          rw [h2] at h1
          simp only [read, if_true] at h1
          exact absurd h1.symm hb'
      subst haa
      have hbb : b = b' := by simpa [read] using h a
      subst hbb
      congr 1
      refine ih hwf hwf' fun x => ?_
      by_cases hx : a = x
      · subst hx; rw [read_of_all_above habove, read_of_all_above habove']
      · simpa [read, hx] using h x

@[simp] theorem bytes_getElem (m : Memory) (addr n k : Nat) (hk : k < n) : (m.bytes addr n)[k] = m.read (addr + k) := by
  simp [bytes]

end Sys2Proof.Machine.Memory

namespace Sys2Proof.Machine

theorem memRead_within (m : Memory) {addr n : Nat} (h : addr + n ≤ 64) : memRead m addr n = .ok (m.bytes addr n) :=
  if_pos h

theorem memRead_outside (m : Memory) {addr n : Nat} (h : ¬ addr + n ≤ 64) : memRead m addr n = .error .bufOutOfRange :=
  if_neg h

theorem memWrite_within {n : Nat} (m : Memory) {addr : Nat} (v : Vector Byte n) (h : addr + n ≤ 64) :
    memWrite m addr v = .ok (m.writeBytes addr v.toList) :=
  if_pos h

theorem memWrite_outside {n : Nat} (m : Memory) {addr : Nat} (v : Vector Byte n) (h : ¬ addr + n ≤ 64) :
    memWrite m addr v = .error .bufOutOfRange :=
  if_neg h

theorem store_within {n : Nat} (s : State) {addr : Nat} (v : Vector Byte n) (h : addr + n ≤ 64) :
    s.store addr v = .ok { s with BUF := s.BUF.writeBytes addr v.toList } := by
  simp [State.store, memWrite_within _ _ h, Except.map]

/-- Whatever `MemWrite` answers is in canonical form. -/
theorem wf_of_memWrite {n : Nat} {m m' : Memory} {addr : Nat} {v : Vector Byte n} (hm : m.wf = true)
    (h : memWrite m addr v = .ok m') : m'.wf = true := by
  by_cases hb : addr + n ≤ 64
  · rw [memWrite_within m v hb] at h
    cases h
    exact Memory.wf_writeBytes hm (by simpa using hb)
  · rw [memWrite_outside m v hb] at h
    cases h

/-- The buffer after reset is in canonical form. -/
theorem wf_reset : State.reset.BUF.wf = true := rfl

end Sys2Proof.Machine
end

