-- ==== Sys2Proof/Laws/State.lean ====
section
/-! SUPPORT. One lemma per field per named update of State, so that no proof unfolds a record update. -/

namespace Sys2Proof.Machine

variable (s : State) (c : Cause)

@[simp] theorem State.raise_V : (s.raise c).V = s.V := rfl
@[simp] theorem State.raise_BUF : (s.raise c).BUF = s.BUF := rfl
@[simp] theorem State.raise_CNT : (s.raise c).CNT = s.CNT := rfl
@[simp] theorem State.raise_LEN : (s.raise c).LEN = s.LEN := rfl
@[simp] theorem State.raise_PHASE : (s.raise c).PHASE = .fault := rfl
@[simp] theorem State.raise_FCAUSE : (s.raise c).FCAUSE = c := rfl
@[simp] theorem State.raise_port : (s.raise c).port = s.port := rfl

@[simp] theorem State.applyReset_V : s.applyReset.V = IV := rfl
@[simp] theorem State.applyReset_BUF : s.applyReset.BUF = Memory.cleared := rfl
@[simp] theorem State.applyReset_CNT : s.applyReset.CNT = 0 := rfl
@[simp] theorem State.applyReset_LEN : s.applyReset.LEN = 0 := rfl
@[simp] theorem State.applyReset_PHASE : s.applyReset.PHASE = .absorb := rfl
@[simp] theorem State.applyReset_FCAUSE : s.applyReset.FCAUSE = .none := rfl
@[simp] theorem State.applyReset_port : s.applyReset.port = s.port := rfl

@[simp] theorem doInit_V : (doInit s).V = IV := rfl
@[simp] theorem doInit_BUF : (doInit s).BUF = Memory.cleared := rfl
@[simp] theorem doInit_CNT : (doInit s).CNT = 0 := rfl
@[simp] theorem doInit_LEN : (doInit s).LEN = 0 := rfl
@[simp] theorem doInit_PHASE : (doInit s).PHASE = .absorb := rfl
@[simp] theorem doInit_FCAUSE : (doInit s).FCAUSE = s.FCAUSE := rfl
@[simp] theorem doInit_port : (doInit s).port = s.port := rfl

@[simp] theorem digestValidO_absorb (h : s.PHASE = .absorb) : s.digestValidO = 0 := by simp [State.digestValidO, h]
@[simp] theorem digestValidO_fault (h : s.PHASE = .fault) : s.digestValidO = 0 := by simp [State.digestValidO, h]
@[simp] theorem digestValidO_done (h : s.PHASE = .done) : s.digestValidO = 1 := by simp [State.digestValidO, h]
@[simp] theorem digestO_absorb (h : s.PHASE = .absorb) : s.digestO = 0 := by simp [State.digestO, h]
@[simp] theorem digestO_fault (h : s.PHASE = .fault) : s.digestO = 0 := by simp [State.digestO, h]
@[simp] theorem digestO_done (h : s.PHASE = .done) : s.digestO = concatWords s.V := by simp [State.digestO, h]

end Sys2Proof.Machine
end

