-- ==== Sys2Proof/Laws/Commands.lean ====
section
/-! SUPPORT. What each shared operation and each command can do, said once; later proofs cite these and do not unfold the
meanings. -/

namespace Sys2Proof.Machine

variable {s t : State} {c : Cause}

@[simp] theorem toList_absorbOperand (b : Byte) : (absorbOperand b).toList = [b] := rfl
@[simp] theorem toList_marker : marker.toList = [0x80] := rfl
@[simp] theorem toList_zeroBytes (n : Nat) : (zeroBytes n).toList = List.replicate n 0x00 := by simp [zeroBytes]
@[simp] theorem length_lengthSuffix (len : LenWord) : (lengthSuffix len).toList.length = 8 := by simp

theorem phase_cases (s : State) : s.PHASE = .absorb ∨ s.PHASE = .done ∨ s.PHASE = .fault := by
  cases s.PHASE <;> simp

/-! ### The gates -/

theorem unlessFaulted_fault (k : State → State) (h : s.PHASE = .fault) : unlessFaulted k s = .next s := by
  simp [unlessFaulted, h]

theorem unlessFaulted_open (k : State → State) (h : s.PHASE ≠ .fault) : unlessFaulted k s = .next (k s) := by
  cases hp : s.PHASE <;> simp_all [unlessFaulted]

theorem whileAbsorbing_fault (k : State → Except Fault State) (h : s.PHASE = .fault) :
    whileAbsorbing c k s = .next s := by
  simp [whileAbsorbing, h]

theorem whileAbsorbing_done (k : State → Except Fault State) (h : s.PHASE = .done) :
    whileAbsorbing c k s = .next (s.raise c) := by
  simp [whileAbsorbing, h]

theorem whileAbsorbing_absorb (k : State → Except Fault State) (h : s.PHASE = .absorb) :
    whileAbsorbing c k s = ofAccess (k s) := by
  simp [whileAbsorbing, h]

/-! ### The Accumulator's operations never leave the buffer -/

theorem flushBlock_eq (s : State) : flushBlock s = .ok { s with V := compress s.V (s.BUF.bytes 0 64) } := by
  simp [flushBlock, memRead_within, Except.map]

/-- The state after an ABSORB that does not overflow. -/
def absorbed (b : Byte) (s : State) : State :=
  if h : s.CNT.val + 1 < 64 then
    { s with LEN := s.LEN + 8, BUF := s.BUF.write s.CNT.val b, CNT := ⟨s.CNT.val + 1, h⟩ }
  else
    { s with LEN := s.LEN + 8, BUF := s.BUF.write s.CNT.val b, CNT := 0,
             V := compress s.V ((s.BUF.write s.CNT.val b).bytes 0 64) }

theorem doAbsorb_overflow (b : Byte) (h : s.LEN = lenMax) : doAbsorb b s = .ok (s.raise .lenOverflow) := by
  simp [doAbsorb, h]

theorem doAbsorb_fits (b : Byte) (h : s.LEN ≠ lenMax) : doAbsorb b s = .ok (absorbed b s) := by
  have hcnt : s.CNT.val + 1 ≤ 64 := by omega
  simp only [doAbsorb, if_neg h]
  rw [store_within _ _ hcnt]
  by_cases hc : s.CNT.val + 1 < 64
  · simp [bind, Except.bind, countByte, absorbed, hc, Memory.writeBytes]
  · simp [bind, Except.bind, countByte, absorbed, hc, Memory.writeBytes, flushBlock_eq, Except.map]

/-- The buffer after FINAL's marker and zero fill. -/
def markedBuffer (m : Memory) (n : Nat) : Memory :=
  (m.writeBytes n [0x80]).writeBytes (n + 1) (List.replicate (63 - n) 0x00)

/-- The state whose buffer FINAL completes with the length suffix: after the spill, where there is one. -/
def spilled (s : State) : State :=
  if s.CNT.val + 1 > 56 then
    { s with BUF := Memory.cleared, V := compress s.V ((markedBuffer s.BUF s.CNT.val).bytes 0 64) }
  else { s with BUF := markedBuffer s.BUF s.CNT.val }

/-- The buffer that FINAL compresses last. -/
def lastBuffer (s : State) : Memory := (spilled s).BUF.writeBytes 56 (lengthSuffix s.LEN).toList

/-- The state after FINAL. -/
def finalized (s : State) : State :=
  { s with BUF := lastBuffer s, V := compress (spilled s).V ((lastBuffer s).bytes 0 64), CNT := 0, PHASE := .done }

theorem doFinal_eq (s : State) : doFinal s = .ok (finalized s) := by
  have h1 : s.CNT.val + 1 ≤ 64 := by omega
  have h2 : s.CNT.val + 1 + (63 - s.CNT.val) ≤ 64 := by omega
  simp only [doFinal]
  rw [store_within _ _ h1]
  simp only [bind, Except.bind]
  rw [store_within _ _ h2]
  by_cases hn : s.CNT.val + 1 > 56
  · simp [spillBlock, hn, flushBlock_eq, Except.map, store_within, finalized, lastBuffer, spilled, markedBuffer]
  · simp [spillBlock, hn, flushBlock_eq, store_within, finalized, lastBuffer, spilled, markedBuffer]

/-! ### The commands -/

theorem exec_init_open (h : s.PHASE ≠ .fault) : exec .init s = .next (doInit s) := unlessFaulted_open _ h

theorem exec_absorb_overflow (b : Byte) (hp : s.PHASE = .absorb) (hl : s.LEN = lenMax) :
    exec (.absorb b) s = .next (s.raise .lenOverflow) := by
  simp [exec, execAbsorb, whileAbsorbing_absorb _ hp, doAbsorb_overflow b hl, ofAccess]

theorem exec_absorb_fits (b : Byte) (hp : s.PHASE = .absorb) (hl : s.LEN ≠ lenMax) :
    exec (.absorb b) s = .next (absorbed b s) := by
  simp [exec, execAbsorb, whileAbsorbing_absorb _ hp, doAbsorb_fits b hl, ofAccess]

theorem exec_absorb_done (b : Byte) (hp : s.PHASE = .done) :
    exec (.absorb b) s = .next (s.raise .absorbAfterDone) := whileAbsorbing_done _ hp

theorem exec_final_absorb (hp : s.PHASE = .absorb) : exec .final s = .next (finalized s) := by
  simp [exec, execFinal, whileAbsorbing_absorb _ hp, doFinal_eq, ofAccess]

theorem exec_final_done (hp : s.PHASE = .done) : exec .final s = .next (s.raise .finalAfterDone) :=
  whileAbsorbing_done _ hp

theorem exec_fault (i : Instr) (hp : s.PHASE = .fault) : exec i s = .next s := by
  cases i with
  | init => exact unlessFaulted_fault _ hp
  | absorb b => exact whileAbsorbing_fault _ hp
  | final => exact whileAbsorbing_fault _ hp

theorem illegalWord_fault (hp : s.PHASE = .fault) : illegalWord s = .next s := unlessFaulted_fault _ hp

theorem illegalWord_open (hp : s.PHASE ≠ .fault) : illegalWord s = .next (s.raise .illegalCmd) := unlessFaulted_open _ hp

theorem acceptWord_legal {cw : CmdWord} {i : Instr} (h : decode cw = .ok i) : acceptWord cw s = exec i s := by
  simp [acceptWord, h]

theorem acceptWord_illegal {cw : CmdWord} {e : Illegal} (h : decode cw = .error e) : acceptWord cw s = illegalWord s := by
  simp [acceptWord, h]

/-- Everything an accepted word can do. -/
theorem acceptWord_cases (cw : CmdWord) (s : State) :
    (s.PHASE = .fault ∧ acceptWord cw s = .next s) ∨
    (s.PHASE ≠ .fault ∧ (∃ e, decode cw = .error e) ∧ acceptWord cw s = .next (s.raise .illegalCmd)) ∨
    (s.PHASE ≠ .fault ∧ decode cw = .ok .init ∧ acceptWord cw s = .next (doInit s)) ∨
    (∃ b, s.PHASE = .done ∧ decode cw = .ok (.absorb b) ∧ acceptWord cw s = .next (s.raise .absorbAfterDone)) ∨
    (∃ b, s.PHASE = .absorb ∧ s.LEN = lenMax ∧ decode cw = .ok (.absorb b) ∧
      acceptWord cw s = .next (s.raise .lenOverflow)) ∨
    (∃ b, s.PHASE = .absorb ∧ s.LEN ≠ lenMax ∧ decode cw = .ok (.absorb b) ∧
      acceptWord cw s = .next (absorbed b s)) ∨
    (s.PHASE = .done ∧ decode cw = .ok .final ∧ acceptWord cw s = .next (s.raise .finalAfterDone)) ∨
    (s.PHASE = .absorb ∧ decode cw = .ok .final ∧ acceptWord cw s = .next (finalized s)) := by
  by_cases hf : s.PHASE = .fault
  · refine .inl ⟨hf, ?_⟩
    cases hd : decode cw with
    | ok i => rw [acceptWord_legal hd, exec_fault i hf]
    | error e => rw [acceptWord_illegal hd, illegalWord_fault hf]
  · have hcases : s.PHASE = .done ∨ s.PHASE = .absorb := by cases hp : s.PHASE <;> simp_all
    cases hd : decode cw with
    | error e => exact .inr (.inl ⟨hf, ⟨e, rfl⟩, by rw [acceptWord_illegal hd, illegalWord_open hf]⟩)
    | ok i =>
      rw [acceptWord_legal hd]
      cases i with
      | init => exact .inr (.inr (.inl ⟨hf, rfl, exec_init_open hf⟩))
      | absorb b =>
        rcases hcases with hp | hp
        · exact .inr (.inr (.inr (.inl ⟨b, hp, rfl, exec_absorb_done b hp⟩)))
        · by_cases hl : s.LEN = lenMax
          · exact .inr (.inr (.inr (.inr (.inl ⟨b, hp, hl, rfl, exec_absorb_overflow b hp hl⟩))))
          · exact .inr (.inr (.inr (.inr (.inr (.inl ⟨b, hp, hl, rfl, exec_absorb_fits b hp hl⟩)))))
      | final =>
        rcases hcases with hp | hp
        · exact .inr (.inr (.inr (.inr (.inr (.inr (.inl ⟨hp, rfl, exec_final_done hp⟩))))))
        · exact .inr (.inr (.inr (.inr (.inr (.inr (.inr ⟨hp, rfl, exec_final_absorb hp⟩))))))

/-- A step takes the oldest event off the port. -/
theorem step_cons {e : PortEvent} {rest : List PortEvent} (h : s.port = e :: rest) :
    step s = performEvent e { s with port := rest } := by
  simp [step, h]

theorem step_nil (h : s.port = []) : step s = .next s := by simp [step, h]

/-! ### Fields of the named results -/

@[simp] theorem absorbed_LEN (b : Byte) (s : State) : (absorbed b s).LEN = s.LEN + 8 := by unfold absorbed; split <;> rfl
@[simp] theorem absorbed_BUF (b : Byte) (s : State) : (absorbed b s).BUF = s.BUF.write s.CNT.val b := by
  unfold absorbed; split <;> rfl
@[simp] theorem absorbed_PHASE (b : Byte) (s : State) : (absorbed b s).PHASE = s.PHASE := by unfold absorbed; split <;> rfl
@[simp] theorem absorbed_FCAUSE (b : Byte) (s : State) : (absorbed b s).FCAUSE = s.FCAUSE := by
  unfold absorbed; split <;> rfl
@[simp] theorem absorbed_port (b : Byte) (s : State) : (absorbed b s).port = s.port := by unfold absorbed; split <;> rfl
theorem absorbed_CNT (b : Byte) (s : State) : (absorbed b s).CNT.val = (s.CNT.val + 1) % 64 := by
  unfold absorbed
  split
  · next h => exact (Nat.mod_eq_of_lt h).symm
  · next h => simp only [Fin.val_zero]; omega
theorem absorbed_V_buffers (b : Byte) (h : s.CNT.val + 1 < 64) : (absorbed b s).V = s.V := by simp [absorbed, h]
theorem absorbed_V_flushes (b : Byte) (h : ¬ s.CNT.val + 1 < 64) :
    (absorbed b s).V = compress s.V ((s.BUF.write s.CNT.val b).bytes 0 64) := by simp [absorbed, h]

@[simp] theorem finalized_LEN (s : State) : (finalized s).LEN = s.LEN := rfl
@[simp] theorem finalized_CNT (s : State) : (finalized s).CNT = 0 := rfl
@[simp] theorem finalized_PHASE (s : State) : (finalized s).PHASE = .done := rfl
@[simp] theorem finalized_FCAUSE (s : State) : (finalized s).FCAUSE = s.FCAUSE := rfl
@[simp] theorem finalized_port (s : State) : (finalized s).port = s.port := rfl
@[simp] theorem finalized_BUF (s : State) : (finalized s).BUF = lastBuffer s := rfl
theorem finalized_V_one (h : s.CNT.val ≤ 55) : (finalized s).V = compress s.V ((lastBuffer s).bytes 0 64) := by
  simp only [finalized, spilled]
  rw [if_neg (by omega)]
theorem finalized_V_two (h : 56 ≤ s.CNT.val) : (finalized s).V =
    compress (compress s.V ((markedBuffer s.BUF s.CNT.val).bytes 0 64)) ((lastBuffer s).bytes 0 64) := by
  simp only [finalized, spilled]
  rw [if_pos (by omega)]

/-! ### The port does not enter into a command -/

theorem absorbed_withPort (b : Byte) (s : State) (p : List PortEvent) :
    absorbed b { s with port := p } = { absorbed b s with port := p } := by
  unfold absorbed
  dsimp only
  split <;> rfl

theorem finalized_withPort (s : State) (p : List PortEvent) :
    finalized { s with port := p } = { finalized s with port := p } := by
  unfold finalized lastBuffer spilled
  dsimp only
  split <;> rfl

theorem exec_withPort (i : Instr) (p : List PortEvent) (h : exec i s = .next t) :
    exec i { s with port := p } = .next { t with port := p } ∧ t.port = s.port := by
  rcases phase_cases s with hp | hp | hp
  · cases i with
    | init =>
      have hf : s.PHASE ≠ .fault := by simp [hp]
      rw [exec_init_open hf] at h
      cases h
      exact ⟨exec_init_open (s := { s with port := p }) hf, rfl⟩
    | absorb b =>
      by_cases hl : s.LEN = lenMax
      · rw [exec_absorb_overflow b hp hl] at h
        cases h
        exact ⟨exec_absorb_overflow (s := { s with port := p }) b hp hl, rfl⟩
      · rw [exec_absorb_fits b hp hl] at h
        cases h
        rw [exec_absorb_fits (s := { s with port := p }) b hp hl, absorbed_withPort]
        exact ⟨rfl, absorbed_port b s⟩
    | final =>
      rw [exec_final_absorb hp] at h
      cases h
      rw [exec_final_absorb (s := { s with port := p }) hp, finalized_withPort]
      exact ⟨rfl, rfl⟩
  · cases i with
    | init =>
      have hf : s.PHASE ≠ .fault := by simp [hp]
      rw [exec_init_open hf] at h
      cases h
      exact ⟨exec_init_open (s := { s with port := p }) hf, rfl⟩
    | absorb b =>
      rw [exec_absorb_done b hp] at h
      cases h
      exact ⟨exec_absorb_done (s := { s with port := p }) b hp, rfl⟩
    | final =>
      rw [exec_final_done hp] at h
      cases h
      exact ⟨exec_final_done (s := { s with port := p }) hp, rfl⟩
  · rw [exec_fault i hp] at h
    cases h
    exact ⟨exec_fault (s := { s with port := p }) i hp, rfl⟩

/-- An event neither reads the port nor changes it. -/
theorem performEvent_withPort (e : PortEvent) (p : List PortEvent) (h : performEvent e s = .next t) :
    performEvent e { s with port := p } = .next { t with port := p } ∧ t.port = s.port := by
  cases e with
  | rst => cases h; exact ⟨rfl, rfl⟩
  | cmd cw =>
    simp only [performEvent] at h ⊢
    cases hd : decode cw with
    | ok i => rw [acceptWord_legal hd] at h ⊢; exact exec_withPort i p h
    | error e =>
      rw [acceptWord_illegal hd] at h ⊢
      by_cases hf : s.PHASE = .fault
      · rw [illegalWord_fault hf] at h
        cases h
        exact ⟨illegalWord_fault (s := { s with port := p }) hf, rfl⟩
      · rw [illegalWord_open hf] at h
        cases h
        exact ⟨illegalWord_open (s := { s with port := p }) hf, rfl⟩

/-! ### The buffer that FINAL leaves -/

theorem wf_markedBuffer {m : Memory} (hm : m.wf = true) {n : Nat} (hn : n < 64) : (markedBuffer m n).wf = true :=
  Memory.wf_writeBytes (Memory.wf_writeBytes hm (by simp; omega)) (by simp; omega)

theorem read_markedBuffer {m : Memory} (hm : m.wf = true) {n : Nat} (hn : n < 64) {x : Nat} (hx : x < 64) :
    (markedBuffer m n).read x = if x < n then m.read x else if x = n then 0x80 else 0x00 := by
  have h1 : n + ([0x80] : List Byte).length ≤ 64 := by simp; omega
  have h2 : n + 1 + (List.replicate (63 - n) (0x00 : Byte)).length ≤ 64 := by simp; omega
  unfold markedBuffer
  rw [Memory.read_writeBytes (Memory.wf_writeBytes hm h1) h2, Memory.read_writeBytes hm h1]
  simp only [List.length_replicate, List.length_singleton]
  rcases Nat.lt_trichotomy x n with h | h | h
  · rw [if_neg (by omega), if_neg (by omega), if_pos h]
  · subst h; rw [if_neg (by omega), if_pos (by omega)]; simp
  · rw [if_pos (by omega), if_neg (by omega), if_neg (by omega), List.getD_replicate _ (by omega)]

theorem wf_spilled (hm : s.BUF.wf = true) : (spilled s).BUF.wf = true := by
  unfold spilled
  split
  · exact Memory.wf_cleared
  · exact wf_markedBuffer hm s.CNT.isLt

theorem wf_lastBuffer (hm : s.BUF.wf = true) : (lastBuffer s).wf = true :=
  Memory.wf_writeBytes (wf_spilled hm) (by simp)

/-- The last block, byte by byte (R48): message bytes and marker unless they were spilled, zeros, the length suffix. -/
theorem read_lastBuffer (hm : s.BUF.wf = true) {x : Nat} (hx : x < 64) :
    (lastBuffer s).read x =
      if h : 56 ≤ x then (lengthSuffix s.LEN)[x - 56]
      else if s.CNT.val + 1 > 56 then 0x00
      else if x < s.CNT.val then s.BUF.read x else if x = s.CNT.val then 0x80 else 0x00 := by
  unfold lastBuffer
  rw [Memory.read_writeBytes (wf_spilled hm) (by simp)]
  simp only [length_lengthSuffix]
  by_cases h : 56 ≤ x
  · rw [if_pos (by omega), dif_pos h, List.getD_eq_getElem _ _ (by simp; omega)]
    simp
  · rw [if_neg (by omega), dif_neg h]
    unfold spilled
    split
    · rfl
    · exact read_markedBuffer hm s.CNT.isLt hx

/-- A block is settled by its bytes. -/
theorem bytes_congr {m m' : Memory} {addr n : Nat} (h : ∀ k, k < n → m.read (addr + k) = m'.read (addr + k)) :
    m.bytes addr n = m'.bytes addr n := by
  ext k hk
  simp [h k hk]

end Sys2Proof.Machine
end

