-- ==== Sys2Proof/Laws/Compress.lean ====
section
/-! SUPPORT. The Compression Engine's laws: the schedule's words are never changed once computed, and the rounds run one after
another. -/

namespace Sys2Proof.Machine

/-- A schedule word, once computed, stays. -/
theorem expand_stable (B : Block) {k i : Nat} (hi : i < 16 + k) : ∀ {k' : Nat} (h : k ≤ k'),
    (expand B k')[i]'(by omega) = (expand B k)[i] := by
  intro k' h
  induction k' with
  | zero => obtain rfl : k = 0 := by omega
            rfl
  | succ k' ih =>
    by_cases hk : k = k' + 1
    · subst hk; rfl
    · rw [← ih (by omega)]
      exact Vector.getElem_push_lt (by omega)

/-- The word computed last is the one of R88's formula. -/
theorem expand_last (B : Block) (k : Nat) : (expand B (k + 1))[16 + k] = nextScheduleWord (expand B k) :=
  Vector.getElem_push_eq

theorem schedule_eq_expand (B : Block) {k i : Nat} (hk : k ≤ 52) (hi : i < 16 + k) :
    (schedule B)[i]'(by omega) = (expand B k)[i] :=
  expand_stable B hi hk

theorem blockWords_getElem (B : Block) {i : Nat} (hi : i < 16) :
    (blockWords B)[i] = be32 B[4 * i] B[4 * i + 1] B[4 * i + 2] B[4 * i + 3] := by
  simp [blockWords]

theorem secondSchedule_getElem (W : Schedule) {j : Nat} (hj : j < 64) : (secondSchedule W)[j] = W[j] ^^^ W[j + 4] := by
  simp [secondSchedule]

/-- The registers after the first `k` rounds. -/
def roundsUpTo (W : Schedule) (W' : SecondSchedule) (r : Working) : Nat → Working
  | 0 => r
  | k + 1 => if h : k < 64 then roundStep ⟨k, h⟩ W[k] W'[k] (roundsUpTo W W' r k) else roundsUpTo W W' r k

theorem roundsUpTo_succ (W : Schedule) (W' : SecondSchedule) (r : Working) {k : Nat} (h : k < 64) :
    roundsUpTo W W' r (k + 1) = roundStep ⟨k, h⟩ W[k] W'[k] (roundsUpTo W W' r k) :=
  dif_pos h

theorem foldl_rounds (W : Schedule) (W' : SecondSchedule) (r : Working) (k : Nat) (hk : k ≤ 64) :
    ((List.finRange 64).take k).foldl (fun r j => roundStep j W[j.val] W'[j.val] r) r = roundsUpTo W W' r k := by
  induction k with
  | zero => rfl
  | succ k ih =>
    have hlt : k < (List.finRange 64).length := by simp; omega
    rw [List.take_succ_eq_append_getElem hlt, List.foldl_append, ih (by omega), roundsUpTo_succ _ _ _ (by omega)]
    simp

/-- The 64 rounds are the rounds one after another (R92). -/
theorem rounds_eq_roundsUpTo (W : Schedule) (W' : SecondSchedule) (r : Working) :
    rounds W W' r = roundsUpTo W W' r 64 := by
  rw [← foldl_rounds W W' r 64 le_rfl, rounds, List.take_of_length_le (by simp)]

/-- The feed-forward, word by word, is exclusive or (R93). -/
theorem feedForward_getElem (S : HashWords) (r : Working) {i : Nat} (hi : i < 8) :
    (feedForward S r)[i] = S[i] ^^^ #v[r.a, r.b, r.c, r.d, r.e, r.f, r.g, r.h][i] := by
  have : i = 0 ∨ i = 1 ∨ i = 2 ∨ i = 3 ∨ i = 4 ∨ i = 5 ∨ i = 6 ∨ i = 7 := by omega
  rcases this with rfl | rfl | rfl | rfl | rfl | rfl | rfl | rfl <;> rfl

end Sys2Proof.Machine
end

