-- ==== Sys2Proof/Laws/Decode.lean ====
section
/-! SUPPORT. The fields of a command word as numbers, and the word as its fields. -/

namespace Sys2Proof

@[simp] theorem toNat_opField (cw : CmdWord) : (opField cw).toNat = cw.toNat / 256 := by
  have := cw.isLt
  simp only [opField, BitVec.extractLsb'_toNat, Nat.shiftRight_eq_div_pow]
  omega

@[simp] theorem toNat_imm8Field (cw : CmdWord) : (imm8Field cw).toNat = cw.toNat % 256 := by
  simp [imm8Field, BitVec.extractLsb'_toNat]

/-- A word is its opcode and its operand byte. -/
theorem word_eq_fields (cw : CmdWord) : cw = opField cw ++ imm8Field cw := by
  apply BitVec.eq_of_toNat_eq
  rw [BitVec.toNat_append, toNat_opField, toNat_imm8Field, Nat.shiftLeft_eq, ← Nat.shiftLeft_eq,
    ← Nat.shiftLeft_add_eq_or_of_lt (Nat.mod_lt _ (by decide)), Nat.shiftLeft_eq]
  omega

theorem toNat_append_byte (op : BitVec 4) (b : Byte) : (op ++ b : CmdWord).toNat = op.toNat * 256 + b.toNat := by
  rw [show (op ++ b : CmdWord).toNat = op.toNat <<< 8 ||| b.toNat from BitVec.toNat_append op b,
    ← Nat.shiftLeft_add_eq_or_of_lt b.isLt, Nat.shiftLeft_eq]

@[simp] theorem opField_append (op : BitVec 4) (b : Byte) : opField (op ++ b) = op := by
  apply BitVec.eq_of_toNat_eq
  rw [toNat_opField, toNat_append_byte]
  have := b.isLt
  omega

@[simp] theorem imm8Field_append (op : BitVec 4) (b : Byte) : imm8Field (op ++ b) = b := by
  apply BitVec.eq_of_toNat_eq
  rw [toNat_imm8Field, toNat_append_byte]
  have := b.isLt
  omega

end Sys2Proof
end

