-- ==== Sys2Proof/Laws/PerInstr.lean ====
section
/-! SUPPORT. Statements about every instruction as syntax, one lemma per constructor. -/

namespace Sys2Proof.Laws.EncodesInItsRow

/-- The word of a command agrees with its row of the opcode map on the row's fixed bits (spec 30_encoding.md R61). -/
def Statement (i : Instr) : Prop := encode i &&& i.row.mask = i.row.pattern

theorem init : Statement .init := by simp [Statement, encode, Instr.row]

theorem absorb (b : Byte) : Statement (.absorb b) := by
  unfold Statement encode Instr.row
  revert b
  decide +kernel

theorem final : Statement .final := by simp [Statement, encode, Instr.row]

end Sys2Proof.Laws.EncodesInItsRow
end

