-- ==== Sys2Proof/Laws/Pseudo.lean ====
section
/-! SUPPORT. Blocks of a byte sequence and runs of events. -/

namespace Sys2Proof.Machine

/-- The first block of a sequence is settled by its first 64 bytes. -/
theorem blockOf_congr {l l' : List Byte} (h : ∀ k, k < 64 → l.getD k 0x00 = l'.getD k 0x00) : blockOf l = blockOf l' := by
  refine Vector.ext fun k hk => ?_
  simp only [blockOf, Vector.getElem_ofFn, h k hk]

theorem blockOf_append {l : List Byte} (h : 64 ≤ l.length) (l' : List Byte) : blockOf (l ++ l') = blockOf l :=
  blockOf_congr fun _ hk => List.getD_append _ _ _ _ (by omega)

/-- Blocks are compressed one after another, so the last one may be split off. -/
theorem compressBlocks_succ (q : Nat) (V : HashWords) (l : List Byte) :
    compressBlocks (q + 1) V l = compress (compressBlocks q V l) (blockOf (l.drop (64 * q))) := by
  induction q generalizing V l with
  | zero => rfl
  | succ q ih =>
    rw [compressBlocks, ih, compressBlocks, List.drop_drop]
    congr 3
    omega

/-- Compressing whole blocks of a sequence does not look at what follows them. -/
theorem compressBlocks_append {q : Nat} (V : HashWords) {l : List Byte} (h : 64 * q ≤ l.length) (l' : List Byte) :
    compressBlocks q V (l ++ l') = compressBlocks q V l := by
  induction q generalizing V l with
  | zero => rfl
  | succ q ih =>
    rw [compressBlocks, compressBlocks, blockOf_append (by omega), List.drop_append_of_le_length (by omega),
      ih _ (by simp; omega)]

theorem compressBlocks_add (p q : Nat) (V : HashWords) (l : List Byte) :
    compressBlocks (p + q) V l = compressBlocks q (compressBlocks p V l) (l.drop (64 * p)) := by
  induction p generalizing V l with
  | zero => simp [compressBlocks]
  | succ p ih =>
    rw [show p + 1 + q = (p + q) + 1 by omega, compressBlocks, ih, compressBlocks, List.drop_drop]
    congr 2
    omega

theorem run_cons_next {e : PortEvent} {es : List PortEvent} {s t : State} (h : performEvent e s = .next t) :
    run (e :: es) s = run es t := by
  simp [run, h]

/-- A run in two parts. -/
theorem run_append {es es' : List PortEvent} {s t : State} (h : run es s = .next t) : run (es ++ es') s = run es' t := by
  induction es generalizing s with
  | nil => cases h; rfl
  | cons e es ih =>
    simp only [run, List.cons_append] at h ⊢
    cases he : performEvent e s with
    | next u => rw [he] at h; exact ih h
    | fault f => simp [he] at h
    | refused r => simp [he] at h

@[simp] theorem commandEvents_nil : commandEvents [] = [] := rfl
@[simp] theorem commandEvents_cons (i : Instr) (is : List Instr) :
    commandEvents (i :: is) = .cmd (encode i) :: commandEvents is := rfl
@[simp] theorem commandEvents_append (is js : List Instr) :
    commandEvents (is ++ js) = commandEvents is ++ commandEvents js := by simp [commandEvents]
@[simp] theorem updateCommands_nil : updateCommands [] = [] := rfl
@[simp] theorem updateCommands_cons (b : Byte) (l : List Byte) :
    updateCommands (b :: l) = .absorb b :: updateCommands l := rfl
@[simp] theorem updateCommands_append (l l' : List Byte) :
    updateCommands (l ++ l') = updateCommands l ++ updateCommands l' := by simp [updateCommands]

end Sys2Proof.Machine
end

