-- ==== Sys2Proof/Tests/Slice0.lean ====
section
/-! SUPPORT. The model's own tests (expected values from spec 95_test_vectors.md, named at each) and, for every obligation with
hypotheses, a theorem `meets_<obligation>` that shows states and operands that meet them. -/

namespace Sys2Proof.Tests

open Sys2Proof Sys2Proof.Machine

/-! ### Small states -/

/-- The next state of an outcome. -/
def after (o : Host.Outcome State Fault Refusal) : Option State :=
  match o with
  | .next s => some s
  | .fault _ => none
  | .refused _ => none

/-- `BUF` with the byte 0x61 at the addresses below `n`. -/
def bytes61 (n : Nat) : Memory := (List.range n).map fun a => (a, 0x61)

/-- After `n` ABSORBs of 0x61 from reset, `n ≤ 63` (T9, T10). -/
def fed (n : Fin 64) : State :=
  { State.reset with BUF := bytes61 n.val, CNT := n, LEN := BitVec.ofNat 64 (8 * n.val) }

/-- The injected state of T16. -/
def nearLimit : State :=
  { State.reset with BUF := bytes61 62, CNT := 62, LEN := 0xFFFFFFFFFFFFFFF0 }

/-- T16 after its step 1. -/
def atLimit : State :=
  { State.reset with BUF := bytes61 63, CNT := 63, LEN := 0xFFFFFFFFFFFFFFF8 }

/-- The digest words of the empty message (T6, P6). -/
def emptyDigest : HashWords :=
  #v[0x1AB21D83, 0x55CFA17F, 0x8E611948, 0x31E81A8F, 0x22BEC8C7, 0x28FEFB74, 0x7ED035EB, 0x5082AA2B]

/-- P6 after its first command. -/
def afterFinal : State := { State.reset with V := emptyDigest, BUF := [(0, 0x80)], PHASE := .done }

/-- P6 after its second command. -/
def faulted : State := { afterFinal with PHASE := .fault, FCAUSE := .finalAfterDone }

/-- A state with events at the port. -/
def awaiting (s : State) (es : List PortEvent) : State := { s with port := es }

/-! ### Well-formedness: what is ill formed is refused -/

theorem test_absorb_operand_in_range : (AsmLine.absorb 255).wellFormed = true ∧ (AsmLine.absorb 256).wellFormed = false := by
  decide
theorem test_word_operand_in_range : (AsmLine.word 4095).wellFormed = true ∧ (AsmLine.word 4096).wellFormed = false := by
  decide
theorem test_update_operands_in_range :
    (AsmLine.update [0, 255]).wellFormed = true ∧ (AsmLine.update [0, 256]).wellFormed = false := by decide
theorem test_hash_operands_in_range :
    (AsmLine.hash []).wellFormed = true ∧ (AsmLine.hash [256, 0]).wellFormed = false := by decide

/-! ### Decoding: words written out from R61's encoding, illegal words of T17 -/

theorem test_decode_init : decode 0b000100000000#12 = .ok .init := by decide
theorem test_decode_absorb : decode 0b001010100101#12 = .ok (.absorb 0xA5) := by decide
theorem test_decode_final : decode 0b001100000000#12 = .ok .final := by decide
theorem test_decode_refuses :
    decode 0x101 = .error (.operandNotZero 1 0x01) ∧ decode 0x3FF = .error (.operandNotZero 3 0xFF) ∧
    decode 0x000 = .error (.reservedOpcode 0) ∧ decode 0x400 = .error (.reservedOpcode 4) := by decide
theorem test_encode : encode .init = 0x100 ∧ encode (.absorb 0x61) = 0x261 ∧ encode .final = 0x300 := by decide
theorem test_table_words : decodeTableWord 16 0x100 = some .init ∧ decodeTableWord 16 0x2FF = some (.absorb 0xFF) ∧
    decodeTableWord 16 0x300 = some .final ∧ decodeTableWord 16 0x1100 = none := by decide
theorem test_presented_word_runs :
    (after (step (State.reset.withFetchWord 16 0x261))).map (fun t => (t.CNT, t.LEN, t.BUF, t.port)) =
      some (1, 8, [(0, 0x61)], []) := by decide

/-! ### Parameters (R5) are the widths of the types -/

theorem test_parameters :
    Config.stateWords = IV.toList.length ∧ Config.schedW = 16 + 52 ∧ Config.rounds = (List.finRange 64).length ∧
    Config.blockWords * Config.wordBits = Config.blockBytes * 8 ∧ Config.stateWords * 4 = Config.digestBytes ∧
    lenMax.toNat = 8 * Config.maxMsgBytes := by decide

/-! ### The Compression Engine (T1 to T7) -/

theorem test_rotl : rotl 0x12345678 7 = 0x1A2B3C09 ∧ rotl 0x7380166F 19 = 0xB37B9C00 ∧ rotl 0x12345678 0 = 0x12345678 := by
  decide
theorem test_P0_P1 : P0 0x7380166F = 0x5F722F88 ∧ P1 0x7380166F = 0x4F0E6FA4 := by decide
theorem test_FF : FF 15 0x7380166F 0x4914B2B9 0x172442D7 = 0x2DB0E601 ∧
    FF 16 0x7380166F 0x4914B2B9 0x172442D7 = 0x530412FF := by decide
theorem test_GG : GG 15 0xA96F30BC 0x163138AA 0xE38DEE4D = 0x5CD3E65B ∧
    GG 16 0xA96F30BC 0x163138AA 0xE38DEE4D = 0x42A1FEE9 := by decide
theorem test_K : roundK 15 = 0x228CBCE6 ∧ roundK 16 = 0x9D8A7A87 ∧ roundK 32 = 0x7A879D8A ∧ roundK 63 = 0x3D43CEC5 := by
  decide

/-- The "abc" block of T3. -/
def abcBlock : Block :=
  Vector.ofFn fun k => if k.val = 0 then 0x61 else if k.val = 1 then 0x62 else if k.val = 2 then 0x63
    else if k.val = 3 then 0x80 else if k.val = 63 then 0x18 else 0x00

/-- T3. -/
theorem test_schedule : (schedule abcBlock)[0] = 0x61626380 ∧ (schedule abcBlock)[15] = 0x00000018 ∧
    (schedule abcBlock)[19] = 0x719C70ED ∧ (schedule abcBlock)[67] = 0xB99C0545 := by decide +kernel
/-- T4. -/
theorem test_second_schedule : (secondSchedule (schedule abcBlock))[15] = 0x719C70F5 ∧
    (secondSchedule (schedule abcBlock))[63] = 0x49E260D5 := by decide +kernel
/-- T5, round 0. -/
theorem test_round_0 : roundStep 0 0x61626380 0x61626380 (Working.ofHash IV) =
    ⟨0xB9EDC12B, 0x7380166F, 0x29657292, 0x172442D7, 0xB2AD29F4, 0xA96F30BC, 0xC550B189, 0xE38DEE4D⟩ := by decide
/-- T5, round 16, the first with the Boolean forms and `T1`. -/
theorem test_round_16 : roundStep 16 0x9092E200 0x9092E200
    ⟨0x34D1691E, 0x7C529778, 0x92B57849, 0x979AB113, 0x61F99646, 0x3EE95933, 0x2AA0D251, 0xDB131B86⟩ =
    ⟨0x796AFAB1, 0x34D1691E, 0xA52EF0F8, 0x92B57849, 0x067550F5, 0x61F99646, 0xC999F74A, 0x2AA0D251⟩ := by decide
/-- T6, last row: the "abc" block compressed into the result of V1. -/
theorem test_compress : compress
    #v[0x66C7F0F4, 0x62EEEDD9, 0xD1F2D46B, 0xDC10E4E2, 0x4167C487, 0x5CF2F7A2, 0x297DA02B, 0x8F4BA8E0] abcBlock =
    #v[0x0F7850F1, 0x4DC40BC2, 0x2FEE85D7, 0x7AB7B30C, 0x8BB1DD1B, 0x977CCFE7, 0x5366C4C0, 0xA55B01F3] := by
  decide +kernel

/-! ### The commands -/

/-- T14: after 64 ABSORBs of 0x61 (T9's row), INIT forgets the flushed block. -/
theorem test_init_makes_fresh : after (exec .init
    { fed 63 with V := #v[0xA5136B61, 0x62610C3F, 0x9A9386E6, 0xDB0FE112, 0x30E6DE4F, 0x89892D3B, 0x853B0DB1, 0xF25A078F],
                  BUF := bytes61 64, CNT := 0, LEN := 0x200 }) = some State.reset := by decide
/-- P6, third command. -/
theorem test_init_ignored_in_fault : after (exec .init faulted) = some faulted := by decide
/-- T9: the 64th ABSORB of 0x61. -/
theorem test_absorb_completes_a_block : after (exec (.absorb 0x61) (fed 63)) =
    some { fed 63 with
      V := #v[0xA5136B61, 0x62610C3F, 0x9A9386E6, 0xDB0FE112, 0x30E6DE4F, 0x89892D3B, 0x853B0DB1, 0xF25A078F]
      BUF := bytes61 64, CNT := 0, LEN := 0x200 } := by decide +kernel
/-- T16, steps 1 and 2a. -/
theorem test_absorb_length_limit : after (exec (.absorb 0x61) nearLimit) = some atLimit ∧
    after (exec (.absorb 0x61) atLimit) = some { atLimit with PHASE := .fault, FCAUSE := .lenOverflow } := by
  decide +kernel
/-- P6, first command. -/
theorem test_final_of_nothing : after (exec .final State.reset) = some afterFinal := by decide +kernel
/-- T16, step 2b: two blocks, the longest length. -/
theorem test_final_two_blocks : (after (exec .final atLimit)).map (fun t => (t.V, t.BUF.bytes 55 9, t.CNT, t.LEN, t.PHASE)) =
    some (#v[0x86DCE723, 0xC0668BB1, 0x4532A29E, 0x508DFE21, 0xE1E37BAC, 0xC1ED48E9, 0xAEFE1C21, 0x493F7174],
      #v[0x00, 0xFF, 0xFF, 0xFF, 0xFF, 0xFF, 0xFF, 0xFF, 0xF8], 0, 0xFFFFFFFFFFFFFFF8, .done) := by decide +kernel
/-- T15: ABSORB and FINAL in DONE, an illegal word in DONE. -/
theorem test_faults_in_done :
    after (step (awaiting afterFinal [.cmd 0x261])) = some { afterFinal with PHASE := .fault, FCAUSE := .absorbAfterDone } ∧
    after (step (awaiting afterFinal [.cmd 0x300])) = some faulted ∧
    after (step (awaiting afterFinal [.cmd 0x301])) = some { afterFinal with PHASE := .fault, FCAUSE := .illegalCmd } := by
  decide
/-- P6, the outputs before and after the fault. -/
theorem test_outputs : afterFinal.digestO = 0x1ab21d8355cfa17f8e61194831e81a8f22bec8c728fefb747ed035eb5082aa2b#256 ∧
    afterFinal.digestValidO = 1 ∧ afterFinal.phaseO = 1 ∧ faulted.digestO = 0 ∧ faulted.digestValidO = 0 ∧
    faulted.phaseO = 2 ∧ faulted.fcauseO = 2 := by decide
/-- R149, R170. -/
theorem test_reset_leaves_fault : after (step (awaiting faulted [.rst])) = some State.reset := by decide

/-! ### The assembler (R67, R68; the text form is log 7) -/

theorem test_assemble_comment : assembleLine ['A', 'B', 'S', 'O', 'R', 'B', ' ', '0', 'x', '6', '1', ';', 'a'] = some [0x261] := by
  decide
theorem test_assemble_string : assembleLine ['H', 'A', 'S', 'H', ' ', '"', 'a', ';', '"'] = some [0x100, 0x261, 0x23B, 0x300] := by
  decide
theorem test_assemble_refuses : assembleLine ['A', 'B', 'S', 'O', 'R', 'B', ' ', '2', '5', '6'] = none ∧
    assembleLine ['.', 'w', 'o', 'r', 'd', ' ', '1', '0', '2', '4'] = some [0x400] := by decide

/-! ### The hypotheses of the obligations can be met -/

theorem holds_nothing : State.reset.HoldsPrefix [] where
  phase := rfl
  fits := by decide
  words := rfl
  count := rfl
  buffered := by intro a ha; simp at ha
  len := rfl
  buf_wf := rfl

theorem inv_nearLimit (es : List PortEvent) : (awaiting nearLimit es).Inv :=
  have h : nearLimit.Inv := ⟨by decide, by decide, by decide, by decide, by decide⟩
  ⟨h.buf_wf, h.cause_iff_fault, h.len_multiple, h.count_of_len, h.done_count⟩

theorem meets_EveryStepKeepsTheInvariant :
    (awaiting nearLimit [.cmd 0x261]).Inv ∧ ∃ t, step (awaiting nearLimit [.cmd 0x261]) = .next t :=
  ⟨inv_nearLimit _, _, rfl⟩

theorem meets_StepRunsTheDecodedCommand :
    (awaiting State.reset [.cmd 0x2FF, .rst]).port = .cmd 0x2FF :: [.rst] ∧ decode 0x2FF = .ok (.absorb 0xFF) := by decide

theorem meets_EmptyPortKeepsTheState : (fed 5).port = [] := rfl

theorem meets_PresentedWordIsAcceptedNext : 4095 < 4096 := by decide

theorem meets_ResetIsTheOnlyRecovery :
    (∃ t, step (awaiting faulted [.rst]) = .next t ∧ faulted.PHASE = .fault ∧ t.PHASE ≠ .fault ∧
      faulted.FCAUSE ≠ .none ∧ t.FCAUSE = .none) ∧
    (∃ t, step (awaiting faulted [.cmd 0x100]) = .next t ∧ faulted.PHASE = .fault ∧ t.PHASE = .fault) :=
  ⟨⟨_, rfl, by decide⟩, ⟨_, rfl, by decide⟩⟩

/-- Both grounds of R63, at the boundaries of the opcode's range and of the operand's. -/
theorem meets_IllegalWordFaults : State.reset.PHASE ≠ .fault ∧ afterFinal.PHASE ≠ .fault ∧
    Statements.IllegalBits 0x000 ∧ Statements.IllegalBits 0x0FF ∧ Statements.IllegalBits 0x400 ∧
    Statements.IllegalBits 0xFFF ∧ Statements.IllegalBits 0x101 ∧ Statements.IllegalBits 0x1FF ∧
    Statements.IllegalBits 0x301 ∧ Statements.IllegalBits 0x3FF ∧ ¬ Statements.IllegalBits 0x100 ∧
    ¬ Statements.IllegalBits 0x200 ∧ ¬ Statements.IllegalBits 0x2FF ∧ ¬ Statements.IllegalBits 0x300 := by
  simp [Statements.IllegalBits, State.reset, afterFinal]

theorem meets_FaultPhaseIgnoresEveryWord :
    faulted.PHASE = .fault ∧ (awaiting faulted [.cmd 0x400]).port = .cmd 0x400 :: [] := by decide

theorem meets_FaultEntryIsPrecise : ∃ t, step (awaiting (fed 5) [.cmd 0x400]) = .next t ∧
    (awaiting (fed 5) [.cmd 0x400]).PHASE ≠ .fault ∧ t.PHASE = .fault :=
  ⟨_, rfl, by decide, by decide⟩

/-- Each of R146's causes, and a word that raises none. -/
theorem meets_FaultPriority :
    Statements.RaisesByPriority 0x301 afterFinal .illegalCmd ∧
    Statements.RaisesByPriority 0x261 afterFinal .absorbAfterDone ∧
    Statements.RaisesByPriority 0x300 afterFinal .finalAfterDone ∧
    Statements.RaisesByPriority 0x261 atLimit .lenOverflow ∧
    (∀ c, ¬ Statements.RaisesByPriority 0x261 nearLimit c) ∧
    (∀ c, ¬ Statements.RaisesByPriority 0x400 faulted c) := by
  simp [Statements.RaisesByPriority, Statements.IllegalBits, afterFinal, atLimit, nearLimit, faulted, State.reset]

/-- No word raises two causes: the clauses of R146 exclude each other. -/
theorem RaisesByPriority_unique {cw : CmdWord} {s : State} {c c' : Cause} (h : Statements.RaisesByPriority cw s c)
    (h' : Statements.RaisesByPriority cw s c') : c = c' := by
  obtain ⟨-, h⟩ := h
  obtain ⟨-, h'⟩ := h'
  rcases h with ⟨h1, rfl⟩ | ⟨h1, h2, h3, rfl⟩ | ⟨h1, h2, h3, rfl⟩ | ⟨h1, h2, h3, -, rfl⟩ <;>
  rcases h' with ⟨g1, rfl⟩ | ⟨g1, g2, g3, rfl⟩ | ⟨g1, g2, g3, rfl⟩ | ⟨g1, g2, g3, -, rfl⟩ <;>
  first | rfl | exact absurd h1 g1 | exact absurd g1 h1 | omega | exact absurd (h3.symm.trans g3) (by decide)

theorem meets_DecodeReadsTheOpcodeMap :
    (0x100#12).toNat / 256 = 1 ∧ (0x100#12).toNat % 256 = 0 ∧ (0x2FF#12).toNat / 256 = 2 ∧
    (0x300#12).toNat / 256 = 3 ∧ (0x300#12).toNat % 256 = 0 ∧
    (0x101#12).toNat % 256 ≠ 0 ∧ (0x301#12).toNat % 256 ≠ 0 ∧ (0x400#12).toNat / 256 = 4 := by decide

theorem meets_DecodeEncodeRoundTrip :
    (Instr.absorb 0xFF).wellFormed = true ∧ Instr.init.wellFormed = true ∧ Instr.final.wellFormed = true ∧
    decode 0x200 = .ok (.absorb 0x00) := by decide

theorem meets_InitMakesTheAccumulatorFresh :
    (fed 63).PHASE ≠ .fault ∧ (fed 63).FCAUSE = .none ∧ afterFinal.PHASE ≠ .fault ∧ faulted.PHASE = .fault ∧
    (0x01#8) ≠ 0 ∧ (awaiting (fed 63) [.cmd 0x101]).port = .cmd (0x1#4 ++ 0x01#8) :: [] := by decide

theorem meets_AbsorbAppendsOneByte :
    ((fed 62).BUF.wf = true ∧ (fed 62).PHASE = .absorb ∧ (fed 62).LEN ≠ 0xFFFFFFFFFFFFFFF8 ∧ (fed 62).CNT.val < 63) ∧
    ((fed 63).BUF.wf = true ∧ (fed 63).PHASE = .absorb ∧ (fed 63).LEN ≠ 0xFFFFFFFFFFFFFFF8 ∧ (fed 63).CNT.val = 63) ∧
    (atLimit.BUF.wf = true ∧ atLimit.PHASE = .absorb ∧ atLimit.LEN = 0xFFFFFFFFFFFFFFF8) ∧
    (afterFinal.BUF.wf = true ∧ afterFinal.PHASE = .done) ∧ (faulted.BUF.wf = true ∧ faulted.PHASE = .fault) := by decide

theorem meets_AbsorbAtTheLengthLimitFaults :
    (atLimit.PHASE = .absorb ∧ atLimit.LEN.toNat = 2 ^ 64 - 8) ∧
    (nearLimit.PHASE = .absorb ∧ nearLimit.LEN.toNat ≠ 2 ^ 64 - 8) := by decide

/-- One byte fits the injected state of T16, two do not. -/
theorem meets_UpdateStopsAtTheLengthLimit : (awaiting nearLimit []).Inv ∧ (awaiting nearLimit []).PHASE = .absorb ∧
    (awaiting nearLimit []).LEN.toNat + 8 * ([0x61] : List Byte).length < 2 ^ 64 ∧
    (awaiting nearLimit []).LEN.toNat + 8 * ([0x61, 0x61] : List Byte).length ≥ 2 ^ 64 :=
  ⟨inv_nearLimit _, by decide, by decide, by decide⟩

theorem meets_CommandsAfterDoneFault : afterFinal.PHASE = .done := rfl

/-- `CNT` at the ends of R48's two ranges. -/
theorem meets_FinalPadsAndCompresses :
    (∀ n : Fin 64, n = 0 ∨ n = 55 ∨ n = 56 ∨ n = 63 →
      (fed n).BUF.wf = true ∧ (fed n).PHASE = .absorb ∧ ((fed n).CNT.val ≤ 55 ↔ n.val < 56)) ∧
    afterFinal.PHASE = .done ∧ faulted.PHASE = .fault ∧ (0xFF#8) ≠ 0 ∧ State.reset.PHASE ≠ .fault ∧
    (awaiting State.reset [.cmd 0x3FF]).port = .cmd (0x3#4 ++ 0xFF#8) :: [] := by
  refine ⟨?_, by decide⟩
  rintro n (rfl | rfl | rfl | rfl) <;> decide

theorem meets_LengthSuffixIsBigEndian :
    (fed 63).BUF.wf = true ∧ (fed 63).PHASE = .absorb ∧ State.reset.BUF.wf = true ∧ State.reset.PHASE = .absorb := by decide

theorem meets_OutputsShowTheState : afterFinal.PHASE = .done ∧ faulted.PHASE ≠ .done ∧ State.reset.PHASE ≠ .done := by decide

theorem meets_DigestBytesAreBigEndian : 7 < 8 ∧ 3 < 4 := by decide

/-- A kept digest, and the ways it is withdrawn. -/
theorem meets_DigestStaysUntilInitResetOrFault : State.reset.PHASE = .absorb ∧ afterFinal.PHASE = .done ∧
    (∃ t, step afterFinal = .next t ∧ t.digestValidO = 1) ∧
    (∃ t, step (awaiting afterFinal [.rst]) = .next t ∧ t.digestValidO = 0) ∧
    (∃ t, step (awaiting afterFinal [.cmd 0x100]) = .next t ∧ t.digestValidO = 0) ∧
    (∃ t, step (awaiting afterFinal [.cmd 0x261]) = .next t ∧ t.PHASE = .fault) :=
  ⟨rfl, rfl, ⟨_, rfl, by decide⟩, ⟨_, rfl, by decide⟩, ⟨_, rfl, by decide⟩, ⟨_, rfl, by decide⟩⟩

theorem meets_BufferAccessWithinBounds :
    (bytes61 64).wf = true ∧ 56 + 8 ≤ 64 ∧ 63 + 1 ≤ 64 ∧ 64 + 0 ≤ 64 ∧ 0 + 64 ≤ 64 := by decide

theorem meets_BufferAccessOutOfBoundsStops : 64 < 64 + 1 ∧ 64 < 57 + 8 := by decide

theorem meets_RotlMovesBits : (31 : Fin 32).val ≠ 0 ∧ 31 < 32 := by decide

theorem meets_RoundConstantTable : 48 ≤ (48 : Fin 64).val ∧ 48 ≤ (63 : Fin 64).val := by decide

theorem meets_BooleanFunctionsBitwise : (15 : Fin 64).val < 16 ∧ 16 ≤ (16 : Fin 64).val ∧ 16 ≤ (63 : Fin 64).val := by decide

theorem meets_EquivalentForms : 16 ≤ (16 : Fin 64).val ∧ ((14 : Fin 64).val < 63 ∧ (14 : Fin 64).val ≠ 15) ∧
    ((62 : Fin 64).val < 63 ∧ (62 : Fin 64).val ≠ 15) := by decide

theorem meets_BlockWordsAreBigEndian : 0 < 16 ∧ 15 < 16 := by decide

theorem meets_MessageExpansion : (16 ≤ 16 ∧ 16 < 68) ∧ (16 ≤ 67 ∧ 67 < 68) ∧ 15 < 16 ∧ 63 < 64 := by decide

/-- One step for each of the four cases. -/
theorem meets_HashStateWriters :
    (∃ t, step (awaiting (fed 5) [.cmd 0x261]) = .next t ∧ t.V = (fed 5).V) ∧
    (∃ t, step (awaiting afterFinal [.cmd 0x100]) = .next t ∧ t.V = IV) ∧
    (∃ t, step (awaiting (fed 63) [.cmd 0x261]) = .next t ∧ t.CNT = 0) ∧
    (∃ t, step (awaiting (fed 55) [.cmd 0x300]) = .next t ∧ t.PHASE = .done) ∧
    (∃ t, step (awaiting (fed 56) [.cmd 0x300]) = .next t ∧ t.PHASE = .done) :=
  ⟨⟨_, rfl, rfl⟩, ⟨_, rfl, rfl⟩, ⟨_, rfl, rfl⟩, ⟨_, rfl, rfl⟩, ⟨_, rfl, rfl⟩⟩

theorem meets_LengthNeverWraps :
    (awaiting nearLimit [.cmd 0x261]).Inv ∧
    (∃ t, step (awaiting nearLimit [.cmd 0x261]) = .next t ∧ t.LEN.toNat = nearLimit.LEN.toNat + 8) :=
  ⟨inv_nearLimit _, _, rfl, by decide⟩

/-- A state that holds two bytes, and the same with a dead byte that differs. -/
theorem meets_DeadBytesAreUnobservable :
    (fed 2).BUF.wf = true ∧ ({ fed 2 with BUF := bytes61 3 } : State).BUF.wf = true ∧
    (fed 2).AlikeButDead { fed 2 with BUF := bytes61 3 } ∧ (∃ t, step (fed 2) = .next t) := by
  refine ⟨by decide, by decide, ⟨rfl, rfl, rfl, rfl, rfl, rfl, fun _ a ha => ?_⟩, _, rfl⟩
  have : a = 0 ∨ a = 1 := by have : (fed 2).CNT.val = 2 := rfl; omega
  rcases this with rfl | rfl <;> decide

theorem meets_AbsorbExtendsThePrefix : State.reset.HoldsPrefix [] ∧ ([] : List Byte).length < 2 ^ 61 - 1 :=
  ⟨holds_nothing, by decide⟩

theorem meets_PrefixOfAnyMessage : afterFinal.PHASE ≠ .fault ∧ ([0x61, 0x62, 0x63] : List Byte).length ≤ 2 ^ 61 - 1 := by
  decide

theorem meets_ChunkEqualsItsBytes : (fed 62).BUF.wf = true ∧ ∃ u, updateChunk [0x61, 0x61, 0x61] (fed 62) = some u := by
  refine ⟨by decide, ?_⟩
  unfold updateChunk
  rw [if_pos (by decide)]
  exact ⟨_, rfl⟩

theorem meets_ChunkingNeverAffectsTheDigest :
    ([[0x61], [], [0x62, 0x63]] : List (List Byte)).flatten.length ≤ 2 ^ 61 - 1 := by decide

theorem meets_HashIsTheClosedForm :
    ([0x61, 0x62, 0x63] : List Byte).length ≤ 2 ^ 61 - 1 ∧ afterFinal.PHASE ≠ .fault := by decide

/-- The last length that fits and the one that does not (T16). -/
theorem meets_AbsorbFaultsExactlyWhenLengthDoesNotFit :
    (awaiting nearLimit []).Inv ∧ nearLimit.PHASE = .absorb ∧ nearLimit.LEN.toNat + 8 < 2 ^ 64 ∧
    atLimit.Inv ∧ atLimit.PHASE = .absorb ∧ 2 ^ 64 ≤ atLimit.LEN.toNat + 8 :=
  ⟨inv_nearLimit _, rfl, by decide, ⟨by decide, by decide, by decide, by decide, by decide⟩, rfl, by decide⟩

theorem meets_AssemblerWords : 255 < 256 ∧ 4095 < 4096 ∧ (∀ b ∈ [0, 255], b < 256) ∧ 256 ≤ 256 ∧ 4096 ≤ 4096 := by decide

end Sys2Proof.Tests
end

section
/-! PROOFS. The outputs as functions of the state (spec 10_state.md R28) and the reset values (R35): O24, O1. -/

namespace Sys2Proof.Machine

/-! ### The status outputs -/

/-- The phase codes are distinct (R26). -/
theorem Phase.code_inj {p q : Phase} : p.code = q.code ↔ p = q := by
  cases p <;> cases q <;> decide

/-- The cause codes are distinct (R27). -/
theorem Cause.code_inj {c d : Cause} : c.code = d.code ↔ c = d := by
  cases c <;> cases d <;> decide

theorem phaseO_eq_code {s : State} (p : Phase) : s.phaseO = p.code ↔ s.PHASE = p := Phase.code_inj

theorem fcauseO_eq_code {s : State} (c : Cause) : s.fcauseO = c.code ↔ s.FCAUSE = c := Cause.code_inj

theorem digestValidO_eq_ite (s : State) : s.digestValidO = if s.PHASE = .done then 1 else 0 := by
  rcases phase_cases s with h | h | h <;> simp [h]

/-! ### The digest output -/

/-- Outside DONE the digest is gated to zero (R28). -/
theorem digestO_of_ne_done {s : State} (h : s.PHASE ≠ .done) : s.digestO = 0 := by
  rcases phase_cases s with ha | hd | hf
  · exact digestO_absorb s ha
  · exact absurd hd h
  · exact digestO_fault s hf

/-- A slice of a slice is one slice. The library has this only for an outer slice from bit 0. -/
theorem extractLsb'_extractLsb' {w start len from' n : Nat} (x : BitVec w) (h : from' + n ≤ len) :
    (x.extractLsb' start len).extractLsb' from' n = x.extractLsb' (start + from') n := by
  ext k hk
  simp only [BitVec.getElem_extractLsb', BitVec.getLsbD_extractLsb', Nat.add_assoc, Bool.and_eq_right_iff_imp,
    decide_eq_true_eq]
  omega

/-- Word 0 stands at the top (R28). The width is first written as the sum that the append lemmas match. -/
theorem extractLsb'_concatWords (v : HashWords) {i : Nat} (h : i < 8) :
    (concatWords v).extractLsb' (224 - 32 * i) 32 = v[i] := by
  change BitVec.extractLsb' (n := 32 + 32 + 32 + 32 + 32 + 32 + 32 + 32) _ _
    (v[0] ++ v[1] ++ v[2] ++ v[3] ++ v[4] ++ v[5] ++ v[6] ++ v[7]) = _
  interval_cases i <;>
    simp only [BitVec.extractLsb'_append_eq_of_le, BitVec.extractLsb'_append_eq_right, BitVec.extractLsb'_eq_self,
      Nat.reduceMul, Nat.reduceSub, Nat.reduceLeDiff]

theorem digestBytes_getElem (v : HashWords) {k : Nat} (h : k < 32) :
    (digestBytes v)[k] = v[k / 4].extractLsb' (24 - 8 * (k % 4)) 8 := by
  have start : 8 * (4 - 1 - k % 4) = 24 - 8 * (k % 4) := by omega
  simp only [digestBytes, bytesBE, Vector.getElem_ofFn, start]

/-- Byte `k` is byte `k % 4` of word `k / 4`, both counted from the top. -/
theorem extractLsb'_concatWords_byte (v : HashWords) {k : Nat} (h : k < 32) :
    (concatWords v).extractLsb' (248 - 8 * k) 8 = (digestBytes v)[k] := by
  have start : 248 - 8 * k = 224 - 32 * (k / 4) + (24 - 8 * (k % 4)) := by omega
  rw [digestBytes_getElem v h, ← extractLsb'_concatWords v (show k / 4 < 8 by omega),
    extractLsb'_extractLsb' _ (by omega), start]

/-! ### The obligations -/

/-- Settles O24: the codes are distinct, and in DONE the output's slices are the words and bytes of `concatWords`. -/
theorem outputsShowTheState : Obligations.OutputsShowTheState := by
  intro s
  refine ⟨phaseO_eq_code .absorb, phaseO_eq_code .done, phaseO_eq_code .fault, fcauseO_eq_code .none,
    fcauseO_eq_code .illegalCmd, fcauseO_eq_code .finalAfterDone, fcauseO_eq_code .absorbAfterDone,
    fcauseO_eq_code .lenOverflow, digestValidO_eq_ite s, fun hd => ?_, digestO_of_ne_done⟩
  rw [digestO_done s hd]
  exact ⟨fun _ hi => extractLsb'_concatWords s.V hi, fun _ hk => extractLsb'_concatWords_byte s.V hk⟩

/-- Settles O1: the fields are the literals of `State.reset`, and the outputs follow from its phase and cause. -/
theorem resetStateValues : Obligations.ResetStateValues :=
  ⟨rfl, fun a _ => Memory.read_cleared a, rfl, rfl, rfl, rfl, (phaseO_eq_code .absorb).mpr rfl,
    (fcauseO_eq_code .none).mpr rfl, digestValidO_absorb _ rfl, digestO_absorb _ rfl⟩

end Sys2Proof.Machine
end

section
/-! PROOFS. The byte orders (spec 20_memory.md R41, R42, R43) and the blocks that FINAL compresses (R48, 42_finalize.md R121):
O22, O23, O34, O25. -/

namespace Sys2Proof.Machine

variable {s : State}

/-! ### Words from bytes -/

/-- A byte appended to a word of any width; `toNat_append_byte` says it of the 12-bit command words. -/
theorem toNat_append_low_byte {w : Nat} (x : BitVec w) (b : Byte) : (x ++ b).toNat = x.toNat * 2 ^ 8 + b.toNat := by
  rw [BitVec.toNat_append, ← Nat.shiftLeft_add_eq_or_of_lt b.isLt, Nat.shiftLeft_eq]

/-- The first byte weighs most (R8, R41). -/
theorem toNat_be32 (b0 b1 b2 b3 : Byte) :
    (be32 b0 b1 b2 b3).toNat = b0.toNat * 2 ^ 24 + b1.toNat * 2 ^ 16 + b2.toNat * 2 ^ 8 + b3.toNat := by
  simp only [be32, toNat_append_low_byte]
  omega

/-- Four bytes that follow each other in `x` are a slice of 32 bits. -/
theorem be32_extractLsb' {w : Nat} (x : BitVec w) (start : Nat) :
    be32 (x.extractLsb' (start + 24) 8) (x.extractLsb' (start + 16) 8) (x.extractLsb' (start + 8) 8)
      (x.extractLsb' start 8) = x.extractLsb' start 32 := by
  rw [be32, BitVec.extractLsb'_append_extractLsb'_eq_extractLsb' (by omega),
    BitVec.extractLsb'_append_extractLsb'_eq_extractLsb' (by omega),
    BitVec.extractLsb'_append_extractLsb'_eq_extractLsb' (by omega)]

/-! ### The blocks of FINAL -/

/-- Byte `k` of the length suffix, most significant first (R42). -/
theorem lengthSuffix_getElem (len : LenWord) {k : Nat} (hk : k < 8) :
    (lengthSuffix len)[k] = len.extractLsb' (8 * (7 - k)) 8 := by
  simp [lengthSuffix, bytesBE]

/-- The suffix stands in the last eight bytes of the last block, whatever `CNT` is (R42). -/
theorem read_lastBuffer_suffix (hm : s.BUF.wf = true) {x : Nat} (hs : 56 ≤ x) (hx : x < 64) :
    (lastBuffer s).read x = s.LEN.extractLsb' (8 * (63 - x)) 8 := by
  have start : 7 - (x - 56) = 63 - x := by omega
  rw [read_lastBuffer hm hx, dif_pos hs, lengthSuffix_getElem _ (by omega), start]

/-- Where the suffix fits after the marker, the last block is the only one (R48). -/
theorem bytes_lastBuffer_of_le (hm : s.BUF.wf = true) (hn : s.CNT.val ≤ 55) :
    (lastBuffer s).bytes 0 64 = Statements.onlyBlock s := by
  ext x hx : 1
  simp only [Memory.bytes_getElem, Nat.zero_add, Statements.onlyBlock, Vector.getElem_ofFn]
  by_cases hs : 56 ≤ x
  · rw [read_lastBuffer_suffix hm hs hx, if_neg (by omega), if_neg (by omega), if_neg (by omega)]
  · rw [read_lastBuffer hm hx, dif_neg hs, if_neg (by omega), if_pos (show x < 56 by omega)]

/-- Otherwise the last block is the second of two: zeros and the suffix (R48). -/
theorem bytes_lastBuffer_of_ge (hm : s.BUF.wf = true) (hn : 56 ≤ s.CNT.val) :
    (lastBuffer s).bytes 0 64 = Statements.secondOfTwo s := by
  ext x hx : 1
  simp only [Memory.bytes_getElem, Nat.zero_add, Statements.secondOfTwo, Vector.getElem_ofFn]
  by_cases hs : 56 ≤ x
  · rw [read_lastBuffer_suffix hm hs hx, if_neg (by omega)]
  · rw [read_lastBuffer hm hx, dif_neg hs, if_pos (by omega), if_pos (by omega)]

/-- The block that is spilled: message bytes, marker, zeros (R48). -/
theorem bytes_markedBuffer (hm : s.BUF.wf = true) :
    (markedBuffer s.BUF s.CNT.val).bytes 0 64 = Statements.firstOfTwo s := by
  ext x hx : 1
  simp only [Memory.bytes_getElem, Nat.zero_add, Statements.firstOfTwo, Vector.getElem_ofFn,
    read_markedBuffer hm s.CNT.isLt hx]

/-- A buffer read as a block, byte by byte. -/
theorem read_of_bytes_eq {m : Memory} {B : Block} (h : m.bytes 0 64 = B) {a : Nat} (ha : a < 64) : m.read a = B[a] := by
  rw [← h, Memory.bytes_getElem, Nat.zero_add]

/-- FINAL in ABSORB where one block is enough: what it compresses and leaves in `BUF` (R48, R121). -/
theorem finalized_of_le (hm : s.BUF.wf = true) (hn : s.CNT.val ≤ 55) :
    (finalized s).V = compress s.V (Statements.onlyBlock s) ∧
      ∀ a (h : a < 64), (finalized s).BUF.read a = (Statements.onlyBlock s)[a] := by
  have last := bytes_lastBuffer_of_le hm hn
  exact ⟨by rw [finalized_V_one hn, last], fun a h => read_of_bytes_eq last h⟩

/-- FINAL in ABSORB where the suffix needs a second block (R48, R121). -/
theorem finalized_of_ge (hm : s.BUF.wf = true) (hn : 56 ≤ s.CNT.val) :
    (finalized s).V = compress (compress s.V (Statements.firstOfTwo s)) (Statements.secondOfTwo s) ∧
      ∀ a (h : a < 64), (finalized s).BUF.read a = (Statements.secondOfTwo s)[a] := by
  have last := bytes_lastBuffer_of_ge hm hn
  exact ⟨by rw [finalized_V_two hn, bytes_markedBuffer hm, last], fun a h => read_of_bytes_eq last h⟩

/-- `W[14]` and `W[15]` of a block that ends in the length suffix are the halves of `LEN` (R42). -/
theorem blockWords_suffix {B : Block} {len : LenWord}
    (h : ∀ k (hk : k < 8), B[56 + k] = len.extractLsb' (8 * (63 - (56 + k))) 8) :
    (blockWords B)[14] = len.extractLsb' 32 32 ∧ (blockWords B)[15] = len.extractLsb' 0 32 := by
  rw [blockWords_getElem, blockWords_getElem, ← be32_extractLsb', ← be32_extractLsb']
  exact ⟨congr (congr (congrArg₂ be32 (h 0 (by omega)) (h 1 (by omega))) (h 2 (by omega))) (h 3 (by omega)),
    congr (congr (congrArg₂ be32 (h 4 (by omega)) (h 5 (by omega))) (h 6 (by omega))) (h 7 (by omega))⟩

/-! ### Illegal words -/

/-- FINAL's operand field must be zero (R62, R63). -/
theorem decode_final_operand {imm8 : Byte} (h : imm8 ≠ 0) :
    decode (0x3#4 ++ imm8) = .error (.operandNotZero 3 imm8) := by
  simp [decode, show imm8 ≠ 0#8 from h]

/-- An accepted illegal word, outside FAULT, changes the phase and the cause only (R142). -/
theorem step_illegal {cw : CmdWord} {rest : List PortEvent} {e : Illegal} (hport : s.port = .cmd cw :: rest)
    (hd : decode cw = .error e) (hp : s.PHASE ≠ .fault) :
    step s = .next { s with port := rest, FCAUSE := .illegalCmd, PHASE := .fault } := by
  rw [step_cons hport, performEvent, acceptWord_illegal hd, illegalWord_open (s := { s with port := rest }) hp,
    State.raise]

/-! ### The obligations -/

/-- Settles O34: a word's bytes weigh as `be32` says. -/
theorem blockWordsAreBigEndian : Obligations.BlockWordsAreBigEndian :=
  ⟨fun B i h => by rw [blockWords_getElem B h, toNat_be32], by decide⟩

/-- Settles O25: byte `4i + k` is byte `k` of word `i`. -/
theorem digestBytesAreBigEndian : Obligations.DigestBytesAreBigEndian := by
  intro V i k hi hk
  have word : (4 * i + k) / 4 = i := by omega
  have byte : (4 * i + k) % 4 = k := by omega
  simp only [digestBytes_getElem V (show 4 * i + k < 32 by omega), word, byte]

/-- Settles O23: the suffix ends the last block in both of R48's cases, and its two words follow. -/
theorem lengthSuffixIsBigEndian : Obligations.LengthSuffixIsBigEndian := by
  refine ⟨fun s hm hp => ⟨finalized s, exec_final_absorb hp, fun k hk => ?_, blockWords_suffix fun k hk => ?_⟩,
    by decide⟩
  · have start : 8 * (63 - (56 + k)) = 56 - 8 * k := by omega
    rw [finalized_BUF, read_lastBuffer_suffix hm (by omega) (by omega), start]
  · rw [Memory.bytes_getElem, Nat.zero_add, finalized_BUF, read_lastBuffer_suffix hm (by omega) (by omega)]

/-- Settles O22: in ABSORB by R48's two cases of `CNT`, in DONE and FAULT by the gate, with an operand by the decoder. -/
theorem finalPadsAndCompresses : Obligations.FinalPadsAndCompresses := by
  refine ⟨fun s hm hp => ?_, fun s hp => exec_final_done hp, fun s hp => exec_fault .final hp,
    fun s imm8 rest himm hp hport => step_illegal hport (decode_final_operand himm) hp⟩
  exact ⟨finalized s, exec_final_absorb hp, finalized_of_le hm, finalized_of_ge hm, rfl, rfl, rfl, rfl, rfl,
    (phaseO_eq_code .done).mpr rfl, rfl, digestValidO_done _ rfl, digestO_done _ rfl⟩

end Sys2Proof.Machine
end

section
/-! PROOFS. The decoder by the fields of the word, and the fields by the word's number (spec 30_encoding.md R61 to R65):
O13. -/

namespace Sys2Proof

variable {cw : CmdWord}

/-! ### The fields as numbers -/

theorem opField_eq_iff {op : BitVec 4} : opField cw = op ↔ cw.toNat / 256 = op.toNat := by
  rw [← BitVec.toNat_inj, toNat_opField]

theorem imm8Field_eq_iff {b : Byte} : imm8Field cw = b ↔ cw.toNat % 256 = b.toNat := by
  rw [← BitVec.toNat_inj, toNat_imm8Field]

theorem ofNat_mod_eq_imm8Field (cw : CmdWord) : BitVec.ofNat 8 (cw.toNat % 256) = imm8Field cw := by
  rw [← toNat_imm8Field, BitVec.ofNat_toNat, BitVec.setWidth_eq]

/-! ### The decoder, an equation for each row of the opcode map -/

theorem decode_init (hop : opField cw = 1) (himm : imm8Field cw = 0) : decode cw = .ok .init :=
  if_pos ⟨hop, himm⟩

theorem decode_absorb (hop : opField cw = 2) : decode cw = .ok (.absorb (imm8Field cw)) := by
  simp [decode, hop]

theorem decode_final (hop : opField cw = 3) (himm : imm8Field cw = 0) : decode cw = .ok .final := by
  simp [decode, hop, himm]

/-- A word in no row of the map is refused, for its operand or for its opcode (R63). -/
theorem decode_illegal (hinit : ¬ (opField cw = 1 ∧ imm8Field cw = 0)) (habsorb : opField cw ≠ 2)
    (hfinal : ¬ (opField cw = 3 ∧ imm8Field cw = 0)) : ∃ e, decode cw = .error e := by
  rw [decode, if_neg hinit, if_neg habsorb, if_neg hfinal]
  split
  · exact ⟨_, rfl⟩
  · exact ⟨_, rfl⟩

/-! ### The obligation -/

/-- Settles O13: the number's quotient and remainder by 256 are the fields, and the fields choose the row. -/
theorem decodeReadsTheOpcodeMap : Obligations.DecodeReadsTheOpcodeMap := by
  intro cw op imm8
  have op1 : op = 1 ↔ opField cw = 1 := (opField_eq_iff (op := 1)).symm
  have op2 : op = 2 ↔ opField cw = 2 := (opField_eq_iff (op := 2)).symm
  have op3 : op = 3 ↔ opField cw = 3 := (opField_eq_iff (op := 3)).symm
  have himm : imm8 = 0 ↔ imm8Field cw = 0 := (imm8Field_eq_iff (b := 0)).symm
  rw [op1, ne_eq, op2, op3, himm, ofNat_mod_eq_imm8Field]
  exact ⟨fun ⟨hop, hzero⟩ => decode_init hop hzero, decode_absorb, fun ⟨hop, hzero⟩ => decode_final hop hzero,
    fun ⟨hinit, habsorb, hfinal⟩ => decode_illegal hinit habsorb hfinal⟩

end Sys2Proof
end

section
/-! PROOFS. The word primitives, the round constants and the Boolean functions (spec 40_compress.md R80 to R86): O29, O30,
O31, O32. -/

namespace Sys2Proof.Machine

/-! ### Rotation, bit by bit -/

@[simp] theorem rotl_zero (x : Word) : rotl x 0 = x := rfl

theorem rotl_of_ne_zero (x : Word) {n : Fin 32} (hn : n.val ≠ 0) : rotl x n = (x <<< n.val) ||| (x >>> (32 - n.val)) :=
  if_neg hn

theorem rotl_eq_rotateLeft (x : Word) (n : Fin 32) : rotl x n = x.rotateLeft n.val := by
  by_cases hn : n.val = 0
  · rw [rotl, if_pos hn, hn, BitVec.rotateLeft_def, Nat.zero_mod, BitVec.shiftLeft_zero, BitVec.ushiftRight_eq_zero le_rfl,
      BitVec.or_zero]
  · rw [rotl_of_ne_zero x hn, BitVec.rotateLeft_def, Nat.mod_eq_of_lt n.isLt]

/-- Bit `i` of the result comes from `n` places below it, counted around the word (R80). -/
theorem getElem_rotl (x : Word) (n : Fin 32) {i : Nat} (hi : i < 32) : (rotl x n)[i] = x[(i + (32 - n.val)) % 32] := by
  simp only [rotl_eq_rotateLeft, BitVec.getElem_rotateLeft, Nat.mod_eq_of_lt n.isLt]
  split
  · congr 1
    omega
  · congr 1
    omega

theorem getLsbD_rotl_add (x : Word) (n : Fin 32) {i : Nat} (hi : i < 32) :
    (rotl x n).getLsbD ((i + n.val) % 32) = x.getLsbD i := by
  have source : ((i + n.val) % 32 + (32 - n.val)) % 32 = i := by omega
  rw [BitVec.getLsbD_eq_getElem (Nat.mod_lt _ (by decide)), getElem_rotl, BitVec.getLsbD_eq_getElem hi]
  simp only [source]

theorem rotl_rotl (x : Word) (m n : Fin 32) : rotl (rotl x m) n = rotl x (Fin.ofNat 32 ((m.val + n.val) % 32)) := by
  ext i hi
  have source : ((i + (32 - n.val)) % 32 + (32 - m.val)) % 32 = (i + (32 - (m.val + n.val) % 32 % 32)) % 32 := by omega
  simp only [getElem_rotl, Fin.val_ofNat, source]

@[simp] theorem rotl_zero_word (n : Fin 32) : rotl 0 n = 0 := by
  ext i hi
  simp [getElem_rotl]

theorem rotl_allOnes (n : Fin 32) : rotl (BitVec.allOnes 32) n = BitVec.allOnes 32 := by
  ext i hi
  simp only [getElem_rotl, BitVec.getElem_allOnes]

theorem rotl_xor (x y : Word) (n : Fin 32) : rotl (x ^^^ y) n = rotl x n ^^^ rotl y n := by
  ext i hi
  simp only [getElem_rotl, BitVec.getElem_xor]

/-! ### The permutations are linear -/

theorem P0_xor (x y : Word) : P0 (x ^^^ y) = P0 x ^^^ P0 y := by
  simp only [P0, rotl_xor]
  ac_rfl

theorem P1_xor (x y : Word) : P1 (x ^^^ y) = P1 x ^^^ P1 y := by
  simp only [P1, rotl_xor]
  ac_rfl

/-! ### The round constants -/

theorem roundT_late {j : Fin 64} (h : 16 ≤ j.val) : roundT j = T1 := if_neg (by omega)

/-- The constant of a round, with the rotation count reduced as R84 writes it. -/
theorem roundK_eq (j : Fin 64) : roundK j = rotl (roundT j) (Fin.ofNat 32 (j.val % 32)) := by
  have count : Fin.ofNat 32 (j.val % 32) = Fin.ofNat 32 j.val := Fin.ext (Nat.mod_mod _ _)
  rw [count, roundK]

/-- From round 48 on, both rounds use `T1` and the same rotation count (R84). -/
theorem roundK_sub_32 {j : Fin 64} (h : 48 ≤ j.val) : roundK j = roundK (j - 32) := by
  have hsub : (j - 32).val = j.val - 32 := Fin.sub_val_of_le (Fin.le_def.mpr (by omega))
  have count : (j.val - 32) % 32 = j.val % 32 := by omega
  rw [roundK_eq, roundK_eq, roundT_late (by omega), roundT_late (by omega), hsub, count]

/-! ### The Boolean functions, an equation for each range of rounds -/

section BooleanFunctions

variable {j : Fin 64} (x y z : Word)

theorem FF_early (h : j.val < 16) : FF j x y z = x ^^^ y ^^^ z := if_pos h

theorem FF_late (h : 16 ≤ j.val) : FF j x y z = (x &&& y) ||| (x &&& z) ||| (y &&& z) := if_neg (by omega)

theorem GG_early (h : j.val < 16) : GG j x y z = x ^^^ y ^^^ z := if_pos h

theorem GG_late (h : 16 ≤ j.val) : GG j x y z = (x &&& y) ||| (~~~x &&& z) := if_neg (by omega)

theorem getLsbD_FF (j : Fin 64) (i : Nat) : (FF j x y z).getLsbD i =
    if j.val ≤ 15 then xor (xor (x.getLsbD i) (y.getLsbD i)) (z.getLsbD i)
    else (x.getLsbD i && y.getLsbD i) || (x.getLsbD i && z.getLsbD i) || (y.getLsbD i && z.getLsbD i) := by
  by_cases h : j.val ≤ 15
  · rw [if_pos h, FF_early x y z (by omega), BitVec.getLsbD_xor, BitVec.getLsbD_xor]
  · simp only [if_neg h, FF_late x y z (show 16 ≤ j.val by omega), BitVec.getLsbD_or, BitVec.getLsbD_and]

/-- In the late rounds the bit of `x` chooses between those of `y` and `z` (R86). -/
theorem getLsbD_GG (j : Fin 64) {i : Nat} (hi : i < 32) : (GG j x y z).getLsbD i =
    if j.val ≤ 15 then xor (xor (x.getLsbD i) (y.getLsbD i)) (z.getLsbD i)
    else if x.getLsbD i then y.getLsbD i else z.getLsbD i := by
  by_cases h : j.val ≤ 15
  · rw [if_pos h, GG_early x y z (by omega), BitVec.getLsbD_xor, BitVec.getLsbD_xor]
  · rw [if_neg h, GG_late x y z (by omega), BitVec.getLsbD_or, BitVec.getLsbD_and, BitVec.getLsbD_and, BitVec.getLsbD_not]
    cases x.getLsbD i <;> simp [hi]

theorem FF_self (j : Fin 64) : FF j x x x = x := by
  by_cases h : j.val < 16
  · rw [FF_early x x x h, BitVec.xor_self, BitVec.zero_xor]
  · rw [FF_late x x x (by omega), BitVec.and_self, BitVec.or_self, BitVec.or_self]

theorem GG_zero_late (h : 16 ≤ j.val) : GG j 0 y z = z := by
  rw [GG_late 0 y z h]
  simp only [BitVec.ofNat_eq_ofNat, BitVec.zero_and, BitVec.not_zero, BitVec.allOnes_and, BitVec.zero_or]

theorem GG_allOnes_late (h : 16 ≤ j.val) : GG j (BitVec.allOnes 32) y z = y := by
  rw [GG_late _ y z h, BitVec.allOnes_and, BitVec.not_allOnes, BitVec.zero_and, BitVec.or_zero]

end BooleanFunctions

/-! ### The obligations -/

/-- Settles O29: every part is read off `getElem_rotl`, and the examples are evaluated. -/
theorem rotlMovesBits : Obligations.RotlMovesBits :=
  ⟨fun x n _ hi => getLsbD_rotl_add x n hi, fun x _ hn => rotl_of_ne_zero x hn, rotl_zero, rotl_rotl,
    fun n => ⟨rotl_zero_word n, rotl_allOnes n⟩, by decide, by decide⟩

/-- Settles O30: rotation is linear, so the permutations are, and the corner cases and examples are evaluated. -/
theorem permutationsAreLinear : Obligations.PermutationsAreLinear :=
  ⟨fun x y => ⟨rfl, rfl, P0_xor x y, P1_xor x y⟩, by decide⟩

/-- Settles O31: the table is evaluated row by row, and the repeat from round 48 is one of `T1` and of the rotation count. -/
theorem roundConstantTable : Obligations.RoundConstantTable :=
  ⟨fun _ => rfl, roundK_eq, by decide, fun _ h => roundK_sub_32 h⟩

/-- Settles O32: the two ranges of rounds, bit by bit, and the examples at the switch evaluated. -/
theorem booleanFunctionsBitwise : Obligations.BooleanFunctionsBitwise :=
  ⟨fun j x y z i hi => ⟨getLsbD_FF x y z j i, getLsbD_GG x y z j hi⟩,
    fun j x y z => ⟨FF_self x j, FF_self 0 j, fun h => (GG_early x y z h).trans (FF_early x y z h).symm,
      fun h => ⟨GG_zero_late y z h, GG_allOnes_late y z h⟩⟩,
    by decide⟩

end Sys2Proof.Machine
end

section
/-! PROOFS. The message expansion and the rounds (spec 40_compress.md R87 to R94): O35, O36. -/

namespace Sys2Proof.Machine

/-! ### The schedule's words by their own recurrence -/

theorem schedule_getElem_lt (B : Block) {i : Nat} (hi : i < 16) :
    (schedule B)[i] = be32 B[4 * i] B[4 * i + 1] B[4 * i + 2] B[4 * i + 3] := by
  rw [schedule_eq_expand B (Nat.zero_le 52) hi]
  exact blockWords_getElem B hi

/-- The recurrence reads earlier words of the finished schedule, because a word once computed stays (R88). -/
theorem schedule_getElem_ge (B : Block) {j : Nat} (hj : 16 ≤ j) (hj' : j < 68) :
    (schedule B)[j] =
      P1 ((schedule B)[j - 16] ^^^ (schedule B)[j - 9] ^^^ rotl (schedule B)[j - 3] 15) ^^^
        rotl (schedule B)[j - 13] 7 ^^^ (schedule B)[j - 6] := by
  obtain ⟨k, rfl⟩ := Nat.exists_eq_add_of_le hj
  have earlier {i : Nat} (hi : i < 16 + k) : (schedule B)[i] = (expand B k)[i] := schedule_eq_expand B (by omega) hi
  rw [schedule_eq_expand B (show k + 1 ≤ 52 by omega) (by omega), expand_last, nextScheduleWord, earlier, earlier, earlier,
    earlier, earlier]

/-! ### The expansion is linear over exclusive or -/

/-- Exclusive or of two blocks, byte by byte. -/
def xorBlock (B C : Block) : Block := Vector.zipWith (· ^^^ ·) B C

theorem xorBlock_getElem (B C : Block) {i : Nat} (hi : i < 64) : (xorBlock B C)[i] = B[i] ^^^ C[i] :=
  Vector.getElem_zipWith hi

/-- The last append is named in full: the sum of its widths is 32 only by evaluation. -/
theorem be32_xor (b0 b1 b2 b3 c0 c1 c2 c3 : Byte) :
    be32 (b0 ^^^ c0) (b1 ^^^ c1) (b2 ^^^ c2) (b3 ^^^ c3) = be32 b0 b1 b2 b3 ^^^ be32 c0 c1 c2 c3 := by
  refine Eq.trans ?_ (BitVec.xor_append (x₁ := b0 ++ b1 ++ b2) (y₁ := b3) (x₂ := c0 ++ c1 ++ c2) (y₂ := c3)).symm
  rw [be32, BitVec.xor_append, BitVec.xor_append]

/-- R88's formula is linear in the five words it reads. They are variables here: on words of a schedule, the search for an
exclusive or to push the rotation through would evaluate the schedule. -/
theorem recurrence_xor (a b c d e a' b' c' d' e' : Word) :
    P1 ((a ^^^ a') ^^^ (b ^^^ b') ^^^ rotl (c ^^^ c') 15) ^^^ rotl (d ^^^ d') 7 ^^^ (e ^^^ e') =
      (P1 (a ^^^ b ^^^ rotl c 15) ^^^ rotl d 7 ^^^ e) ^^^ (P1 (a' ^^^ b' ^^^ rotl c' 15) ^^^ rotl d' 7 ^^^ e') := by
  simp only [rotl_xor, P1_xor]
  ac_rfl

/-- By strong induction along the recurrence, whose every operation is linear. -/
theorem schedule_xorBlock (B C : Block) {j : Nat} (hj : j < 68) :
    (schedule (xorBlock B C))[j] = (schedule B)[j] ^^^ (schedule C)[j] := by
  induction j using Nat.strongRecOn with
  | ind j ih =>
    by_cases h : j < 16
    · rw [schedule_getElem_lt (xorBlock B C) h, schedule_getElem_lt B h, schedule_getElem_lt C h, ← be32_xor]
      simp only [xorBlock_getElem]
    · have h16 : 16 ≤ j := by omega
      rw [schedule_getElem_ge (xorBlock B C) h16 hj, schedule_getElem_ge B h16 hj, schedule_getElem_ge C h16 hj,
        ih (j - 16) (by omega), ih (j - 9) (by omega), ih (j - 3) (by omega), ih (j - 13) (by omega), ih (j - 6) (by omega)]
      exact recurrence_xor ..

/-- The zero block is its own exclusive or with itself, so by linearity its schedule is a word exclusive-ored with itself. -/
theorem schedule_zero {j : Nat} (hj : j < 68) : (schedule (Vector.replicate 64 0x00))[j] = 0 := by
  have hxor : xorBlock (Vector.replicate 64 0x00) (Vector.replicate 64 0x00) = Vector.replicate 64 0x00 := by
    ext i hi : 1
    simp [xorBlock_getElem]
  have hself := schedule_xorBlock (Vector.replicate 64 0x00) (Vector.replicate 64 0x00) hj
  rwa [hxor, BitVec.xor_self] at hself

/-! ### One round -/

theorem roundFormula_roundStep (j : Fin 64) (w w' : Word) (r : Working) :
    Statements.RoundFormula j w w' r (roundStep j w w' r) := by
  have hSS1 : roundSS1 j r =
      rotl (rotl r.a 12 + r.e + rotl (if j.val < 16 then 0x79CC4519 else 0x7A879D8A) (Fin.ofNat 32 (j.val % 32))) 7 := by
    rw [roundSS1, roundK_eq]
    rfl
  simp only [Statements.RoundFormula, ← hSS1]
  exact ⟨rfl, rfl, rfl, rfl, rfl, rfl, rfl, rfl⟩

/-! ### The obligations -/

/-- Settles O35: the recurrence on the finished schedule, and linearity by induction along it. -/
theorem messageExpansion : Obligations.MessageExpansion :=
  ⟨fun B _ hi => schedule_getElem_lt B hi, fun B _ ⟨hj, hj'⟩ => schedule_getElem_ge B hj hj',
    fun B _ hj => secondSchedule_getElem (schedule B) hj, fun B C _ hj => schedule_xorBlock B C hj,
    fun _ hj => schedule_zero hj⟩

/-- Settles O36: the registers after each number of rounds are `roundsUpTo`, each from the one before by `roundStep`. -/
theorem compressIsSixtyFourRounds : Obligations.CompressIsSixtyFourRounds := by
  intro S B
  refine ⟨roundsUpTo (schedule B) (secondSchedule (schedule B)) (Working.ofHash S), rfl, fun j h => ?_, ?_⟩
  · rw [roundsUpTo_succ _ _ _ h]
    exact roundFormula_roundStep _ _ _ _
  · rw [compress, rounds_eq_roundsUpTo, feedForward]

end Sys2Proof.Machine
end

section
/-! PROOFS. INIT and ABSORB from every phase, and a chunk's ABSORBs up to the length limit (spec 41_accumulate.md R100, R101,
R104): O17, O18, O20. -/

namespace Sys2Proof

theorem decode_encode (i : Instr) : decode (encode i) = .ok i := by
  cases i with
  | init => exact decode_init (opField_append 1 0) (imm8Field_append 1 0)
  | absorb b => rw [encode, decode_absorb (opField_append 0x2#4 b), imm8Field_append]
  | final => exact decode_final (opField_append 3 0) (imm8Field_append 3 0)

end Sys2Proof

namespace Sys2Proof.Machine

variable {s t : State}

/-! ### Commands as the host presents them -/

theorem performEvent_encode (i : Instr) (s : State) : performEvent (.cmd (encode i)) s = exec i s :=
  acceptWord_legal (decode_encode i)

theorem run_commandEvents_cons {i : Instr} (h : exec i s = .next t) (is : List Instr) :
    run (commandEvents (i :: is)) s = run (commandEvents is) t := by
  rw [commandEvents_cons, run_cons_next ((performEvent_encode i s).trans h)]

/-- In FAULT every command is ignored (R148). -/
theorem run_commandEvents_fault (hp : s.PHASE = .fault) (is : List Instr) : run (commandEvents is) s = .next s := by
  induction is with
  | nil => rfl
  | cons i is ih => rw [run_commandEvents_cons (exec_fault i hp), ih]

/-! ### INIT -/

/-- INIT's operand field must be zero (R62, R63). -/
theorem decode_init_operand {imm8 : Byte} (h : imm8 ≠ 0) :
    decode (0x1#4 ++ imm8) = .error (.operandNotZero 1 imm8) := by
  simp [decode, show imm8 ≠ 0#8 from h]

/-- With no cause recorded INIT does what reset does (R100). -/
theorem doInit_eq_reset (h : s.FCAUSE = .none) : doInit s = { State.reset with port := s.port } := by
  rw [doInit, h]
  rfl

/-! ### ABSORB -/

theorem absorbed_CNT_of_lt (b : Byte) (h : s.CNT.val < 63) : (absorbed b s).CNT.val = s.CNT.val + 1 := by
  rw [absorbed_CNT, Nat.mod_eq_of_lt (by omega)]

theorem absorbed_CNT_of_eq (b : Byte) (h : s.CNT.val = 63) : (absorbed b s).CNT = 0 := by
  apply Fin.ext
  rw [absorbed_CNT, h]
  rfl

/-- The completed block is the buffered bytes with the new byte last (R101). -/
theorem absorbed_V_of_eq (b : Byte) (hm : s.BUF.wf = true) (h : s.CNT.val = 63) :
    (absorbed b s).V = compress s.V (Vector.ofFn fun k => if k.val = 63 then b else s.BUF.read k.val) := by
  rw [absorbed_V_flushes b (by omega)]
  refine congrArg (compress s.V) (Vector.ext fun k hk => ?_)
  rw [Memory.bytes_getElem, Memory.read_write hm, Vector.getElem_ofFn, Nat.zero_add, h]

/-! ### The ABSORBs of a chunk -/

theorem toNat_lenMax : lenMax.toNat = 2 ^ 64 - 8 := rfl

theorem toNat_absorbed_LEN (b : Byte) (h : s.LEN.toNat + 8 < 2 ^ 64) : (absorbed b s).LEN.toNat = s.LEN.toNat + 8 := by
  rw [absorbed_LEN]
  exact BitVec.toNat_add_of_lt h

/-- A chunk whose length fits is absorbed whole (R104). -/
theorem run_update_fits {data : List Byte} (hp : s.PHASE = .absorb) (hfit : s.LEN.toNat + 8 * data.length < 2 ^ 64) :
    ∃ t, run (commandEvents (updateCommands data)) s = .next t ∧ t.PHASE = .absorb ∧
      t.LEN.toNat = s.LEN.toNat + 8 * data.length := by
  induction data generalizing s with
  | nil => exact ⟨s, rfl, hp, rfl⟩
  | cons b data ih =>
    rw [List.length_cons] at hfit ⊢
    have hne : s.LEN ≠ lenMax := fun h => by rw [h, toNat_lenMax] at hfit; omega
    have hlen := toNat_absorbed_LEN (s := s) b (by omega)
    obtain ⟨t, hrun, hphase, hlen'⟩ := ih (s := absorbed b s) ((absorbed_PHASE b s).trans hp) (by omega)
    refine ⟨t, ?_, hphase, by omega⟩
    rw [updateCommands_cons, run_commandEvents_cons (exec_absorb_fits b hp hne), hrun]

/-- At the length limit the first byte faults and the others are ignored (R104, R148). -/
theorem run_update_at_limit (hp : s.PHASE = .absorb) (hl : s.LEN = lenMax) (b : Byte) (data : List Byte) :
    run (commandEvents (updateCommands (b :: data))) s = .next (s.raise .lenOverflow) := by
  rw [updateCommands_cons, run_commandEvents_cons (exec_absorb_overflow b hp hl), run_commandEvents_fault rfl]

/-! ### The obligations -/

/-- Settles O17: outside FAULT the next state is `doInit s`, in FAULT the gate holds, with an operand the decoder refuses. -/
theorem initMakesTheAccumulatorFresh : Obligations.InitMakesTheAccumulatorFresh := by
  refine ⟨fun s hp => ?_, fun s hp => exec_fault .init hp,
    fun s imm8 rest himm hp hport => step_illegal hport (decode_init_operand himm) hp, exec_init_open (by decide)⟩
  exact ⟨doInit s, exec_init_open hp, rfl, Memory.read_cleared, rfl, rfl, rfl, rfl, rfl, digestValidO_absorb _ rfl,
    digestO_absorb _ rfl, doInit_eq_reset, exec_init_open (by simp)⟩

/-- Settles O18: in ABSORB the next state is `absorbed b s`, its block complete or not; the other cases are the gate's and the
limit's. -/
theorem absorbAppendsOneByte : Obligations.AbsorbAppendsOneByte := by
  intro s b hm
  refine ⟨fun hp hl => ?_, fun hp hl => exec_absorb_overflow b hp hl, fun hp => exec_absorb_done b hp,
    fun hp => exec_fault _ hp⟩
  have hp' : (absorbed b s).PHASE = .absorb := (absorbed_PHASE b s).trans hp
  refine ⟨absorbed b s, exec_absorb_fits b hp hl, absorbed_LEN b s, fun a => ?_,
    fun h => ⟨absorbed_CNT_of_lt b h, absorbed_V_buffers b (by omega)⟩,
    fun h => ⟨absorbed_CNT_of_eq b h, absorbed_V_of_eq b hm h⟩, hp', absorbed_FCAUSE b s, absorbed_port b s,
    congrArg Phase.code (absorbed_PHASE b s), congrArg Cause.code (absorbed_FCAUSE b s), ?_, ?_⟩
  · rw [absorbed_BUF, Memory.read_write hm]
  · rw [digestValidO_absorb _ hp', digestValidO_absorb _ hp]
  · rw [digestO_absorb _ hp', digestO_absorb _ hp]

/-- Settles O20: a chunk that does not fit is one that fits, up to `LEN = 2^64 - 8` exactly because `LEN` is a multiple of 8,
and a rest that begins with the offending byte. -/
theorem updateStopsAtTheLengthLimit : Obligations.UpdateStopsAtTheLengthLimit := by
  intro s data hinv hp
  refine ⟨run_update_fits hp, fun hover => ?_⟩
  have hmul := hinv.len_multiple
  have hlt := s.LEN.isLt
  generalize hm : (2 ^ 64 - 8 - s.LEN.toNat) / 8 = m
  have hlimit : s.LEN.toNat + 8 * m = 2 ^ 64 - 8 := by omega
  have hmdata : m < data.length := by omega
  have htake : (data.take m).length = m := List.length_take_of_le hmdata.le
  obtain ⟨t, hrun, hphase, hlen⟩ := run_update_fits (data := data.take m) hp (by omega)
  rw [htake, hlimit] at hlen
  refine ⟨t, hrun, hphase, hlen, ?_⟩
  calc run (commandEvents (updateCommands data)) s
    _ = run (commandEvents (updateCommands (data.drop m))) t := by
      rw [← run_append hrun, ← commandEvents_append, ← updateCommands_append, List.take_append_drop]
    _ = .next (t.raise .lenOverflow) := by
      rw [List.drop_eq_getElem_cons hmdata]
      exact run_update_at_limit hphase (BitVec.eq_of_toNat_eq hlen) _ _

end Sys2Proof.Machine
end

section
/-! PROOFS. The digest after FINAL, and how long it stays (spec 42_finalize.md R124): O26. -/

namespace Sys2Proof

/-- A word that decodes is the encoding of its command: the opcode and the operand byte fix it (R61, R65). -/
theorem encode_of_decode {cw : CmdWord} {i : Instr} (h : decode cw = .ok i) : encode i = cw := by
  have fields := word_eq_fields cw
  by_cases hinit : opField cw = 1 ∧ imm8Field cw = 0
  · obtain ⟨hop, himm⟩ := hinit
    rw [decode_init hop himm] at h
    cases h
    rw [hop, himm] at fields
    exact fields.symm
  by_cases habsorb : opField cw = 2
  · rw [decode_absorb habsorb] at h
    cases h
    rw [habsorb] at fields
    exact fields.symm
  by_cases hfinal : opField cw = 3 ∧ imm8Field cw = 0
  · obtain ⟨hop, himm⟩ := hfinal
    rw [decode_final hop himm] at h
    cases h
    rw [hop, himm] at fields
    exact fields.symm
  obtain ⟨e, he⟩ := decode_illegal hinit habsorb hfinal
  rw [he] at h
  cases h

end Sys2Proof

namespace Sys2Proof.Machine

variable {s t : State}

/-- In DONE every accepted word but INIT's faults: an illegal one, ABSORB's and FINAL's (R142, R143, R144). -/
theorem acceptWord_done {cw : CmdWord} (hp : s.PHASE = .done) (h : acceptWord cw s = .next t) :
    cw = encode .init ∨ t.PHASE = .fault := by
  have hopen : s.PHASE ≠ .fault := by simp [hp]
  cases hd : decode cw with
  | error e =>
    rw [acceptWord_illegal hd, illegalWord_open hopen] at h
    cases h
    exact .inr rfl
  | ok i =>
    rw [acceptWord_legal hd] at h
    cases i with
    | init => exact .inl (encode_of_decode hd).symm
    | absorb b =>
      rw [exec_absorb_done b hp] at h
      cases h
      exact .inr rfl
    | final =>
      rw [exec_final_done hp] at h
      cases h
      exact .inr rfl

/-- In DONE byte `4i + k` of `digest_o` is byte `k` of word `i` (R124). -/
theorem digestO_byte (hp : s.PHASE = .done) {i k : Nat} (hi : i < 8) (hk : k < 4) :
    s.digestO.extractLsb' (248 - 8 * (4 * i + k)) 8 = s.V[i].extractLsb' (24 - 8 * k) 8 := by
  rw [digestO_done s hp, extractLsb'_concatWords_byte s.V (by omega), digestBytesAreBigEndian s.V i k hi hk]

/-- Settles O26: FINAL ends in DONE, and of the events a step in DONE can take, only reset and INIT leave it without a
fault. -/
theorem digestStaysUntilInitResetOrFault : Obligations.DigestStaysUntilInitResetOrFault := by
  refine ⟨fun s hp => ⟨finalized s, exec_final_absorb hp, digestValidO_done _ rfl, fun i k hi hk =>
    ⟨digestBytesAreBigEndian _ i k hi hk, digestO_byte rfl hi hk⟩⟩, fun s t hp hstep => ?_⟩
  cases hport : s.port with
  | nil =>
    rw [step_nil hport] at hstep
    cases hstep
    exact .inl ⟨rfl, digestValidO_done s hp, hp⟩
  | cons e rest =>
    cases e with
    | rst => exact .inr (.inl ⟨rest, rfl⟩)
    | cmd cw =>
      rw [step_cons hport] at hstep
      rcases acceptWord_done (s := { s with port := rest }) hp hstep with rfl | hfault
      · exact .inr (.inr (.inl ⟨rest, rfl⟩))
      · exact .inr (.inr (.inr hfault))

end Sys2Proof.Machine
end

section
/-! PROOFS. The faults: which word raises which cause, what a fault changes, and what ends it (spec 60_exceptions.md R142 to R149):
O12, O11, O8, O9, O10, O21, O49. -/

namespace Sys2Proof

variable {cw : CmdWord}

/-! ### R63's illegal words and the decoder -/

/-- The decoder refuses the words that R63 calls illegal. -/
theorem decode_of_illegalBits (h : Statements.IllegalBits cw) : ∃ e, decode cw = .error e := by
  obtain ⟨-, -, -, refused⟩ := decodeReadsTheOpcodeMap cw
  simp only [Statements.IllegalBits] at h
  exact refused (by omega)

theorem op_of_legalBits (h : ¬ Statements.IllegalBits cw) :
    cw.toNat / 256 = 1 ∨ cw.toNat / 256 = 2 ∨ cw.toNat / 256 = 3 := by
  simp only [Statements.IllegalBits] at h
  omega

theorem imm8_of_legalBits (h : ¬ Statements.IllegalBits cw) (hop : cw.toNat / 256 = 1 ∨ cw.toNat / 256 = 3) :
    cw.toNat % 256 = 0 := by
  simp only [Statements.IllegalBits] at h
  omega

theorem decode_of_op_one (h : ¬ Statements.IllegalBits cw) (hop : cw.toNat / 256 = 1) : decode cw = .ok .init :=
  decode_init (opField_eq_iff.mpr hop) (imm8Field_eq_iff.mpr (imm8_of_legalBits h (.inl hop)))

theorem decode_of_op_two (hop : cw.toNat / 256 = 2) : decode cw = .ok (.absorb (imm8Field cw)) :=
  decode_absorb (opField_eq_iff.mpr hop)

theorem decode_of_op_three (h : ¬ Statements.IllegalBits cw) (hop : cw.toNat / 256 = 3) : decode cw = .ok .final :=
  decode_final (opField_eq_iff.mpr hop) (imm8Field_eq_iff.mpr (imm8_of_legalBits h (.inr hop)))

end Sys2Proof

namespace Sys2Proof.Machine

variable {s t : State} {cw : CmdWord} {c : Cause} {rest : List PortEvent}

/-! ### The phase FAULT -/

/-- In FAULT every accepted word is ignored, legal or not (R148). -/
theorem acceptWord_fault (cw : CmdWord) (hp : s.PHASE = .fault) : acceptWord cw s = .next s := by
  cases hd : decode cw with
  | ok i => rw [acceptWord_legal hd, exec_fault i hp]
  | error e => rw [acceptWord_illegal hd, illegalWord_fault hp]

theorem step_word_fault (hport : s.port = .cmd cw :: rest) (hp : s.PHASE = .fault) :
    step s = .next { s with port := rest } := by
  rw [step_cons hport]
  exact acceptWord_fault cw hp

/-- `run_commandEvents_fault` for words that need not be legal. -/
theorem run_words_fault (hp : s.PHASE = .fault) (cws : List CmdWord) : run (cws.map .cmd) s = .next s := by
  induction cws with
  | nil => rfl
  | cons cw cws ih =>
    have ignored : performEvent (.cmd cw) s = .next s := acceptWord_fault cw hp
    rw [List.map_cons, run_cons_next ignored, ih]

/-! ### R146's list and the accepted word -/

/-- No clause of R146's list writes NONE. -/
theorem cause_ne_none_of_raises (h : Statements.RaisesByPriority cw s c) : c ≠ .none := by
  obtain ⟨-, ⟨-, rfl⟩ | ⟨-, -, -, rfl⟩ | ⟨-, -, -, rfl⟩ | ⟨-, -, -, -, rfl⟩⟩ := h
  all_goals decide

/-- The first check that applies decides the fault. -/
theorem acceptWord_of_raises (h : Statements.RaisesByPriority cw s c) : acceptWord cw s = .next (s.raise c) := by
  obtain ⟨hopen, ⟨hill, rfl⟩ | ⟨-, hop, hp, rfl⟩ | ⟨hleg, hop, hp, rfl⟩ | ⟨-, hop, hp, hlen, rfl⟩⟩ := h
  · obtain ⟨e, hd⟩ := decode_of_illegalBits hill
    rw [acceptWord_illegal hd, illegalWord_open hopen]
  · rw [acceptWord_legal (decode_of_op_two hop), exec_absorb_done _ hp]
  · rw [acceptWord_legal (decode_of_op_three hleg hop), exec_final_done hp]
  · rw [acceptWord_legal (decode_of_op_two hop), exec_absorb_overflow _ hp hlen]

/-- Where no check applies the word is ignored, or is an INIT, or is an ABSORB or a FINAL that phase ABSORB performs. -/
theorem acceptWord_of_raises_none (h : ∀ c, ¬ Statements.RaisesByPriority cw s c) :
    ∃ t, acceptWord cw s = .next t ∧ t.FCAUSE = s.FCAUSE ∧ (t.PHASE = .fault ↔ s.PHASE = .fault) := by
  by_cases hopen : s.PHASE = .fault
  · exact ⟨s, acceptWord_fault cw hopen, rfl, Iff.rfl⟩
  have hleg : ¬ Statements.IllegalBits cw := fun hill => h .illegalCmd ⟨hopen, .inl ⟨hill, rfl⟩⟩
  rcases op_of_legalBits hleg with hop | hop | hop
  · rw [acceptWord_legal (decode_of_op_one hleg hop)]
    exact ⟨doInit s, exec_init_open hopen, rfl, by simp [hopen]⟩
  · rw [acceptWord_legal (decode_of_op_two hop)]
    rcases phase_cases s with hp | hp | hp
    · have hlen : s.LEN ≠ lenMax := fun hlen =>
        h .lenOverflow ⟨hopen, .inr (.inr (.inr ⟨hleg, hop, hp, hlen, rfl⟩))⟩
      exact ⟨_, exec_absorb_fits _ hp hlen, absorbed_FCAUSE _ s, by rw [absorbed_PHASE]⟩
    · exact absurd ⟨hopen, .inr (.inl ⟨hleg, hop, hp, rfl⟩)⟩ (h .absorbAfterDone)
    · exact absurd hp hopen
  · rw [acceptWord_legal (decode_of_op_three hleg hop)]
    rcases phase_cases s with hp | hp | hp
    · exact ⟨finalized s, exec_final_absorb hp, rfl, by simp [hopen]⟩
    · exact absurd ⟨hopen, .inr (.inr (.inl ⟨hleg, hop, hp, rfl⟩))⟩ (h .finalAfterDone)
    · exact absurd hp hopen

/-- Settles O12: R146's list is that of the accepted word, at the state with the word taken off the port. -/
theorem faultPriority : Obligations.FaultPriority := by
  intro s cw rest hport
  rw [step_cons hport]
  exact ⟨fun c hraise => acceptWord_of_raises (s := { s with port := rest }) hraise,
    fun hnone => acceptWord_of_raises_none (s := { s with port := rest }) hnone⟩

/-! ### What a step does to the cause and the phase -/

/-- Every step is a reset, or raises a fault by R146's list, or leaves the cause as it is and FAULT neither entered nor left; in
FAULT the last of these changes nothing but the port. -/
theorem step_fault_cases (hstep : step s = .next t) :
    (∃ rest, s.port = .rst :: rest ∧ t = { State.reset with port := rest }) ∨
    (∃ cw rest c, s.port = .cmd cw :: rest ∧ Statements.RaisesByPriority cw s c ∧
      t = { s with port := rest, FCAUSE := c, PHASE := .fault }) ∨
    (t.FCAUSE = s.FCAUSE ∧ (t.PHASE = .fault ↔ s.PHASE = .fault) ∧
      (s.PHASE = .fault → t = { s with port := t.port })) := by
  cases hport : s.port with
  | nil =>
    rw [step_nil hport] at hstep
    cases hstep
    exact .inr (.inr ⟨rfl, Iff.rfl, fun _ => rfl⟩)
  | cons e rest =>
    cases e with
    | rst =>
      rw [step_cons hport] at hstep
      cases hstep
      exact .inl ⟨rest, rfl, rfl⟩
    | cmd cw =>
      obtain ⟨raises, raisesNone⟩ := faultPriority s cw rest hport
      by_cases hraise : ∃ c, Statements.RaisesByPriority cw s c
      · obtain ⟨c, hc⟩ := hraise
        rw [raises c hc] at hstep
        cases hstep
        exact .inr (.inl ⟨cw, rest, c, rfl, hc, rfl⟩)
      · obtain ⟨u, hu, hcause, hphase⟩ := raisesNone (not_exists.mp hraise)
        obtain rfl : u = t := by simpa [hu] using hstep
        refine .inr (.inr ⟨hcause, hphase, fun hp => ?_⟩)
        rw [step_word_fault hport hp] at hstep
        cases hstep
        rfl

/-! ### The obligations -/

/-- Settles O11: of the steps that end in FAULT only a raise begins elsewhere. -/
theorem faultEntryIsPrecise : Obligations.FaultEntryIsPrecise := by
  intro s t hs ht hstep
  rcases step_fault_cases hstep with ⟨rest, -, rfl⟩ | ⟨cw, rest, c, hport, hraise, rfl⟩ | ⟨-, hphase, -⟩
  · cases ht
  · have hc := cause_ne_none_of_raises hraise
    exact ⟨⟨cw, rest, c, hport, hc, rfl⟩, (phaseO_eq_code .fault).mpr rfl, mt (fcauseO_eq_code .none).mp hc,
      digestValidO_fault _ rfl, digestO_fault _ rfl, run_words_fault rfl⟩
  · exact absurd (hphase.mp ht) hs

/-- Settles O8: of the kinds of steps only the reset leaves FAULT or writes the cause NONE, and a raise begins outside FAULT. -/
theorem resetIsTheOnlyRecovery : Obligations.ResetIsTheOnlyRecovery := by
  refine ⟨fun s rest hport => ⟨_, step_cons hport, rfl, (phaseO_eq_code .absorb).mpr rfl,
    (fcauseO_eq_code .none).mpr rfl, digestValidO_absorb _ rfl, digestO_absorb _ rfl⟩, fun s t hstep => ?_⟩
  rcases step_fault_cases hstep with ⟨rest, hport, rfl⟩ | ⟨cw, rest, c, -, hraise, rfl⟩ | ⟨hcause, hphase, hkeeps⟩
  · exact ⟨fun _ _ => ⟨rest, hport, rfl⟩, nofun, fun _ _ => ⟨rest, hport⟩⟩
  · have hopen := hraise.1
    exact ⟨fun hs => absurd hs hopen, fun hs => absurd hs hopen,
      fun _ hnone => absurd hnone (cause_ne_none_of_raises hraise)⟩
  · exact ⟨fun hs ht => absurd (hphase.mpr hs) ht, fun hs _ => hkeeps hs,
      fun hs hnone => absurd (hcause.symm.trans hnone) hs⟩

/-- Settles O9: the decoder refuses the word before the phase is looked at. -/
theorem illegalWordFaults : Obligations.IllegalWordFaults := by
  refine ⟨fun s cw rest hport hp hill => ?_, ?_⟩
  · obtain ⟨e, hd⟩ := decode_of_illegalBits hill
    exact step_illegal hport hd hp
  · exact ⟨(absorbed 0x61 State.reset).raise .illegalCmd, rfl, rfl, rfl, rfl, rfl, rfl, rfl⟩

/-- Settles O10: the gates of the commands and of the illegal words are closed in FAULT. -/
theorem faultPhaseIgnoresEveryWord : Obligations.FaultPhaseIgnoresEveryWord :=
  fun _ hp => ⟨fun _ _ hport => step_word_fault hport hp, fun i => exec_fault i hp⟩

/-- Settles O21: in DONE the gate raises; the examples are runs of commands whose first ones end in `finalized`, so that no block
is computed. -/
theorem commandsAfterDoneFault : Obligations.CommandsAfterDoneFault := by
  have published : run (commandEvents [.final]) State.reset = .next (finalized State.reset) :=
    run_commandEvents_cons (exec_final_absorb rfl) []
  have again : run (commandEvents [.final, .final]) State.reset =
      .next ((finalized State.reset).raise .finalAfterDone) :=
    (run_commandEvents_cons (exec_final_absorb rfl) _).trans (run_commandEvents_cons (exec_final_done rfl) [])
  have late : run (commandEvents [.absorb 0x61, .final, .absorb 0x62]) State.reset =
      .next ((finalized (absorbed 0x61 State.reset)).raise .absorbAfterDone) := by
    rw [run_commandEvents_cons (exec_absorb_fits 0x61 rfl (by decide)), run_commandEvents_cons (exec_final_absorb rfl)]
    exact run_commandEvents_cons (exec_absorb_done 0x62 rfl) []
  exact ⟨fun s b hp => ⟨exec_final_done hp, exec_absorb_done b hp⟩,
    ⟨_, _, published, digestValidO_done _ rfl, again, rfl, rfl, digestValidO_fault _ rfl, digestO_fault _ rfl, rfl⟩,
    ⟨_, late, rfl, rfl, rfl⟩⟩

/-- Settles O49: a `LEN` that is a multiple of 8 and to which 8 cannot be added is `2^64 - 8`. -/
theorem absorbFaultsExactlyWhenLengthDoesNotFit : Obligations.AbsorbFaultsExactlyWhenLengthDoesNotFit := by
  intro s b hinv hp
  have limit : 2 ^ 64 ≤ s.LEN.toNat + 8 ↔ s.LEN = lenMax := by
    have hmul := hinv.len_multiple
    rw [← BitVec.toNat_inj, toNat_lenMax]
    omega
  refine ⟨limit, fun hover => exec_absorb_overflow b hp (limit.mp hover), fun hfit => ?_⟩
  have hl : s.LEN ≠ lenMax := fun hl => absurd (limit.mpr hl) (by omega)
  exact ⟨absorbed b s, exec_absorb_fits b hp hl, (absorbed_PHASE b s).trans hp, absorbed_FCAUSE b s,
    toNat_absorbed_LEN b hfit⟩

end Sys2Proof.Machine
end

section
/-! PROOFS. The end of a run and its result (spec 70_reset_and_hazards.md R180): O50. -/

namespace Sys2Proof.Machine

variable {s t : State}

/-! ### Every run has a last state -/

/-- An accepted word raises a fault by R146's list or is performed; either gives a next state (R10, R66). -/
theorem exists_acceptWord_eq_next (cw : CmdWord) (s : State) : ∃ t, acceptWord cw s = .next t := by
  by_cases hraise : ∃ c, Statements.RaisesByPriority cw s c
  · obtain ⟨c, hc⟩ := hraise
    exact ⟨s.raise c, acceptWord_of_raises hc⟩
  · obtain ⟨t, ht, -⟩ := acceptWord_of_raises_none (not_exists.mp hraise)
    exact ⟨t, ht⟩

theorem exists_performEvent_eq_next (e : PortEvent) (s : State) : ∃ t, performEvent e s = .next t := by
  cases e with
  | rst => exact ⟨s.applyReset, rfl⟩
  | cmd cw => exact exists_acceptWord_eq_next cw s

theorem exists_run_eq_next (es : List PortEvent) (s : State) : ∃ t, run es s = .next t := by
  induction es generalizing s with
  | nil => exact ⟨s, rfl⟩
  | cons e es ih =>
    obtain ⟨u, hu⟩ := exists_performEvent_eq_next e s
    rw [run_cons_next hu]
    exact ih u

theorem run_singleton (e : PortEvent) (s : State) : run [e] s = performEvent e s := by
  obtain ⟨t, ht⟩ := exists_performEvent_eq_next e s
  rw [run_cons_next ht, ht, run]

/-- A further event is performed on the last state so far (R49). -/
theorem run_concat {es : List PortEvent} (h : run es s = .next t) (e : PortEvent) :
    run (es ++ [e]) s = performEvent e t := by
  rw [run_append h, run_singleton]

/-! ### The result by phase -/

theorem State.result_absorb (h : s.PHASE = .absorb) : s.result = .unfinished := by simp [State.result, h]
theorem State.result_done (h : s.PHASE = .done) : s.result = .digest (digestBytes s.V) := by simp [State.result, h]
theorem State.result_fault (h : s.PHASE = .fault) : s.result = .failed s.FCAUSE := by simp [State.result, h]

/-- In DONE the bytes of `digest_o` are those of the digest, and no others (R28, R124). -/
theorem eq_digestBytes_iff_digestO (hp : s.PHASE = .done) (d : Digest) :
    digestBytes s.V = d ↔ ∀ k (h : k < 32), d[k] = s.digestO.extractLsb' (248 - 8 * k) 8 := by
  rw [eq_comm, Vector.ext_iff, digestO_done s hp]
  exact forall₂_congr fun k hk => by rw [extractLsb'_concatWords_byte s.V hk]

theorem State.result_eq_digest_iff (d : Digest) :
    s.result = .digest d ↔ s.PHASE = .done ∧ ∀ k (h : k < 32), d[k] = s.digestO.extractLsb' (248 - 8 * k) 8 := by
  rcases phase_cases s with ha | hd | hf
  · simp [State.result_absorb ha, ha]
  · rw [State.result_done hd, RunResult.digest.injEq, eq_digestBytes_iff_digestO hd, and_iff_right hd]
  · simp [State.result_fault hf, hf]

theorem State.exists_result_eq_failed_iff : (∃ c, s.result = .failed c) ↔ s.PHASE = .fault := by
  rcases phase_cases s with ha | hd | hf
  · simp [State.result_absorb ha, ha]
  · simp [State.result_done hd, hd]
  · simp [State.result_fault hf, hf]

theorem State.result_eq_unfinished_iff : s.result = .unfinished ↔ s.PHASE = .absorb := by
  rcases phase_cases s with ha | hd | hf
  · simp [State.result_absorb ha, ha]
  · simp [State.result_done hd, hd]
  · simp [State.result_fault hf, hf]

/-! ### The obligation -/

/-- Settles O50: events are total, so by induction a run has a last state, and that state's phase alone decides its result. -/
theorem runHasADigestExactlyInDone : Obligations.RunHasADigestExactlyInDone := by
  intro es s
  obtain ⟨t, ht⟩ := exists_run_eq_next es s
  exact ⟨rfl, t, ht, run_concat ht, State.result_eq_digest_iff, State.exists_result_eq_failed_iff,
    State.result_eq_unfinished_iff⟩

end Sys2Proof.Machine
end

section
/-! PROOFS. Decoding against encoding, and the number of legal words (spec 30_encoding.md R61 to R65): O16, O14, O15. -/

namespace Sys2Proof

theorem Instr.wellFormed_eq_true (i : Instr) : i.wellFormed = true := by
  cases i <;> rfl

/-- Settles O16: `decode_encode` and `encode_of_decode`, every command being well formed. -/
theorem decodeEncodeRoundTrip : Obligations.DecodeEncodeRoundTrip :=
  ⟨fun i _ => decode_encode i, fun _ i h => ⟨i.wellFormed_eq_true, encode_of_decode h⟩⟩

/-- Settles O14: nine fixed words, each evaluated. -/
theorem decodeSampleWords : Obligations.DecodeSampleWords := by
  unfold Obligations.DecodeSampleWords
  decide

/-! ### The legal words, counted -/

/-- A word is legal or illegal by R63's rule. -/
theorem isSome_decode_iff (cw : CmdWord) : (decode cw).toOption.isSome = true ↔ ¬ Statements.IllegalBits cw := by
  by_cases h : Statements.IllegalBits cw
  · obtain ⟨e, he⟩ := decode_of_illegalBits h
    simp [he, h, Except.toOption]
  · refine iff_of_true ?_ h
    rcases op_of_legalBits h with hop | hop | hop
    · rw [decode_of_op_one h hop]; rfl
    · rw [decode_of_op_two hop]; rfl
    · rw [decode_of_op_three h hop]; rfl

/-- The numbers of the legal words: 0x100, and 0x200 to 0x300 without a gap (R63). -/
def legalNumbers : Finset Nat := insert 0x100 (Finset.Icc 0x200 0x300)

theorem legalBits_iff_mem_legalNumbers {n : Nat} (hn : n < 4096) :
    ¬ Statements.IllegalBits (BitVec.ofNat 12 n) ↔ n ∈ legalNumbers := by
  have hmod : n % 2 ^ 12 = n := Nat.mod_eq_of_lt hn
  simp only [Statements.IllegalBits, BitVec.toNat_ofNat, hmod, legalNumbers, Finset.mem_insert, Finset.mem_Icc]
  omega

theorem filter_legal :
    (Finset.range 4096).filter (fun n => (decode (BitVec.ofNat 12 n)).toOption.isSome = true) = legalNumbers := by
  ext n
  rw [Finset.mem_filter, Finset.mem_range, isSome_decode_iff]
  by_cases hn : n < 4096
  · simp only [hn, true_and, legalBits_iff_mem_legalNumbers hn]
  · simp only [hn, false_and, false_iff, legalNumbers, Finset.mem_insert, Finset.mem_Icc]
    omega

theorem length_filter_legal :
    ((List.range 4096).filter fun n => (decode (BitVec.ofNat 12 n)).toOption.isSome).length = 258 := by
  have hcard : legalNumbers.card = 258 := by
    rw [legalNumbers, Finset.card_insert_of_notMem (by simp), Nat.card_Icc]
  rw [← hcard, ← filter_legal, Finset.card_def, Finset.filter_val, Finset.range_val, Multiset.range, Multiset.filter_coe,
    Multiset.coe_card]
  simp only [Bool.decide_eq_true]

/-- Settles O15: the legal words are counted, and the illegal ones are the rest. -/
theorem legalWordCount : Obligations.LegalWordCount := by
  refine ⟨length_filter_legal, ?_⟩
  have rest := (List.range 4096).length_eq_length_filter_add fun n => (decode (BitVec.ofNat 12 n)).toOption.isSome
  rw [length_filter_legal, List.length_range] at rest
  simp only [Option.not_isSome] at rest
  omega

end Sys2Proof
end

section
/-! PROOFS. One step and the port (spec 30_encoding.md R60, R66, 70_reset_and_hazards.md R180): O4, O5, O6, O7, O46. -/

namespace Sys2Proof.Machine

variable {s t : State}

/-! ### Presented words -/

theorem mod_two_pow_16 {w : Nat} (hw : w < 4096) : w % 2 ^ 16 = w := Nat.mod_eq_of_lt (by omega)

theorem withFetchWord_of_lt (s : State) {w : Nat} (hw : w < 4096) :
    s.withFetchWord 16 w = { s with port := .cmd (BitVec.ofNat 12 w) :: s.port } := by
  rw [State.withFetchWord, presentWord, mod_two_pow_16 hw, if_pos hw]

theorem decodeTableWord_of_lt {w : Nat} (hw : w < 4096) :
    decodeTableWord 16 w = (decode (BitVec.ofNat 12 w)).toOption := by
  rw [decodeTableWord, mod_two_pow_16 hw, if_pos hw]

/-! ### Steps against runs -/

/-- The port may be exchanged for another under an event, whose next state then has that port (log 1). -/
theorem exists_performEvent_withPort (e : PortEvent) (s : State) (p q : List PortEvent) :
    ∃ u : State, performEvent e { s with port := p } = .next { u with port := p } ∧
      performEvent e { s with port := q } = .next { u with port := q } := by
  obtain ⟨u, hu⟩ := exists_performEvent_eq_next e s
  exact ⟨u, (performEvent_withPort e p hu).1, (performEvent_withPort e q hu).1⟩

/-- The host's run of the core takes its steps one after another. -/
theorem core_run_succ (h : step s = .next t) (k : Nat) : core.run (k + 1) s = core.run k t := by
  have hcore : core.step s = .next t := h
  simp only [Host.Core.run, hcore]

/-- By induction on the events: each step takes one, and what waits behind them does not matter to it. -/
theorem core_run_eq_run (es rest : List PortEvent) (s : State) :
    core.run es.length { s with port := es ++ rest } = run es { s with port := rest } := by
  induction es generalizing s with
  | nil => rfl
  | cons e es ih =>
    obtain ⟨u, hu, hu'⟩ := exists_performEvent_withPort e s (es ++ rest) rest
    have hstep : step { s with port := e :: es ++ rest } = .next { u with port := es ++ rest } :=
      (step_cons (s := { s with port := e :: es ++ rest }) rfl).trans hu
    rw [run_cons_next hu', List.length_cons, core_run_succ hstep, ih]

/-! ### The obligations -/

/-- Settles O4: a step is idle or performs an event, and every event has a next state. -/
theorem everyStepCompletes : Obligations.EveryStepCompletes := by
  intro s
  cases hport : s.port with
  | nil => exact ⟨s, step_nil hport⟩
  | cons e rest =>
    rw [step_cons hport]
    exact exists_performEvent_eq_next e _

/-- Settles O5: the step is the accepted word, and the accepted word its command. -/
theorem stepRunsTheDecodedCommand : Obligations.StepRunsTheDecodedCommand :=
  fun _ _ _ _ hport hd => (step_cons hport).trans (acceptWord_legal hd)

/-- Settles O6: `step_nil`. -/
theorem emptyPortKeepsTheState : Obligations.EmptyPortKeepsTheState :=
  fun _ hport => step_nil hport

/-- Settles O7: a number below 4096 is its own remainder in 16 bits, so its word is put at the head of the port. -/
theorem presentedWordIsAcceptedNext : Obligations.PresentedWordIsAcceptedNext := by
  intro s w hw
  rw [withFetchWord_of_lt s hw]
  exact ⟨step_cons (s := { s with port := .cmd (BitVec.ofNat 12 w) :: s.port }) rfl, decodeTableWord_of_lt hw⟩

/-- Settles O46: the induction on the events, and the result by phase. -/
theorem runAppliesEventsInOrder : Obligations.RunAppliesEventsInOrder :=
  ⟨core_run_eq_run, fun _ =>
    ⟨State.result_eq_digest_iff, State.exists_result_eq_failed_iff, State.result_eq_unfinished_iff⟩⟩

end Sys2Proof.Machine
end

section
/-! PROOFS. What one step can do, the invariant, and who writes `V` and `LEN` (spec 10_state.md R21, R25, R27, R33, 41_accumulate.md
R104, 42_finalize.md R125, 60_exceptions.md R145): O2, O3, O37, O38, O19. -/

namespace Sys2Proof.Machine

variable {s t : State}

/-! ### The kinds of steps -/

/-- The effects a step of `s` can have; the word that has one stands at the port. `step_kind` says that there are no others. -/
inductive StepKind (s : State) : State → Prop where
  /-- Nothing waits, or the phase is FAULT (R60, R148). -/
  | idle (p : List PortEvent) : StepKind s { s with port := p }
  /-- The reset event (R170). -/
  | reset {rest : List PortEvent} (hport : s.port = .rst :: rest) : StepKind s { State.reset with port := rest }
  /-- A fault is raised (R147). -/
  | raise {c : Cause} (rest : List PortEvent) (hc : c ≠ .none) (hp : s.PHASE ≠ .fault) :
      StepKind s { s.raise c with port := rest }
  /-- INIT is performed (R100). -/
  | init {rest : List PortEvent} (hport : s.port = .cmd (encode .init) :: rest) (hp : s.PHASE ≠ .fault) :
      StepKind s { doInit s with port := rest }
  /-- ABSORB is performed (R101). -/
  | absorb {b : Byte} {rest : List PortEvent} (hport : s.port = .cmd (encode (.absorb b)) :: rest) (hp : s.PHASE = .absorb)
      (hl : s.LEN ≠ lenMax) : StepKind s { absorbed b s with port := rest }
  /-- FINAL is performed (R121). -/
  | final {rest : List PortEvent} (hport : s.port = .cmd (encode .final) :: rest) (hp : s.PHASE = .absorb) :
      StepKind s { finalized s with port := rest }

theorem acceptWord_kind {cw : CmdWord} {rest : List PortEvent} (hport : s.port = .cmd cw :: rest)
    (h : acceptWord cw { s with port := rest } = .next t) : StepKind s t := by
  have done_open (hp : s.PHASE = .done) : s.PHASE ≠ .fault := by simp [hp]
  have absorb_open (hp : s.PHASE = .absorb) : s.PHASE ≠ .fault := by simp [hp]
  have encoded {i : Instr} (hd : decode cw = .ok i) : s.port = .cmd (encode i) :: rest := by
    rw [hport, encode_of_decode hd]
  rcases acceptWord_cases cw { s with port := rest } with
    ⟨-, ha⟩ | ⟨hp, -, ha⟩ | ⟨hp, hd, ha⟩ | ⟨b, hp, -, ha⟩ | ⟨b, hp, -, -, ha⟩ | ⟨b, hp, hl, hd, ha⟩ | ⟨hp, -, ha⟩ |
    ⟨hp, hd, ha⟩ <;> (rw [ha] at h; cases h)
  · exact .idle rest
  · exact .raise rest (by decide) hp
  · exact .init (encoded hd) hp
  · exact .raise rest (by decide) (done_open hp)
  · exact .raise rest (by decide) (absorb_open hp)
  · rw [absorbed_withPort]
    exact .absorb (encoded hd) hp hl
  · exact .raise rest (by decide) (done_open hp)
  · rw [finalized_withPort]
    exact .final (encoded hd) hp

/-- Everything a step can do. -/
theorem step_kind (h : step s = .next t) : StepKind s t := by
  cases hport : s.port with
  | nil =>
    rw [step_nil hport] at h
    cases h
    exact .idle s.port
  | cons e rest =>
    rw [step_cons hport] at h
    cases e with
    | rst =>
      cases h
      exact .reset hport
    | cmd cw => exact acceptWord_kind hport h

/-! ### The invariant is kept -/

/-- The port is no part of the invariant. -/
theorem State.Inv.withPort (h : s.Inv) (p : List PortEvent) : ({ s with port := p } : State).Inv where
  buf_wf := h.buf_wf
  cause_iff_fault := h.cause_iff_fault
  len_multiple := h.len_multiple
  count_of_len := h.count_of_len
  done_count := h.done_count

/-- Settles O2: the reset values are literals. -/
theorem invariantHoldsAtReset : Obligations.InvariantHoldsAtReset where
  buf_wf := wf_reset
  cause_iff_fault := by decide
  len_multiple := rfl
  count_of_len _ := rfl
  done_count := nofun

theorem inv_raise (h : s.Inv) {c : Cause} (hc : c ≠ .none) : (s.raise c).Inv where
  buf_wf := h.buf_wf
  cause_iff_fault := iff_of_true hc rfl
  len_multiple := h.len_multiple
  count_of_len := nofun
  done_count := nofun

theorem inv_doInit (h : s.Inv) (hp : s.PHASE ≠ .fault) : (doInit s).Inv where
  buf_wf := Memory.wf_cleared
  cause_iff_fault := iff_of_false (mt h.cause_iff_fault.mp hp) nofun
  len_multiple := rfl
  count_of_len _ := by simp
  done_count := nofun

/-- Away from the limit a `LEN` that is a multiple of 8 has room for 8 more (R104). -/
theorem toNat_absorbed_LEN_of_inv (b : Byte) (h : s.Inv) (hp : s.PHASE = .absorb) (hl : s.LEN ≠ lenMax) :
    (absorbed b s).LEN.toNat = s.LEN.toNat + 8 := by
  obtain ⟨limit, -⟩ := absorbFaultsExactlyWhenLengthDoesNotFit s b h hp
  exact toNat_absorbed_LEN b (not_le.mp (mt limit.mp hl))

/-- `CNT` and `LEN / 8` count on together, one modulo 64 (R33). -/
theorem inv_absorbed (b : Byte) (h : s.Inv) (hp : s.PHASE = .absorb) (hl : s.LEN ≠ lenMax) : (absorbed b s).Inv where
  buf_wf := by
    rw [absorbed_BUF]
    exact Memory.wf_write h.buf_wf s.CNT.isLt b
  cause_iff_fault := by
    rw [absorbed_FCAUSE, absorbed_PHASE]
    exact h.cause_iff_fault
  len_multiple := by
    have hmul := h.len_multiple
    rw [toNat_absorbed_LEN_of_inv b h hp hl]
    omega
  count_of_len _ := by
    have hcount := h.count_of_len hp
    rw [absorbed_CNT, toNat_absorbed_LEN_of_inv b h hp hl]
    omega
  done_count hd := by
    rw [absorbed_PHASE, hp] at hd
    cases hd

theorem inv_finalized (h : s.Inv) (hp : s.PHASE = .absorb) : (finalized s).Inv where
  buf_wf := wf_lastBuffer h.buf_wf
  cause_iff_fault := iff_of_false (mt h.cause_iff_fault.mp (by simp [hp])) nofun
  len_multiple := h.len_multiple
  count_of_len := nofun
  done_count _ := rfl

/-! ### The obligations -/

/-- Settles O3: each kind of step keeps the invariant. -/
theorem everyStepKeepsTheInvariant : Obligations.EveryStepKeepsTheInvariant := by
  intro s t h hstep
  cases step_kind hstep with
  | idle p => exact h.withPort p
  | reset _ => exact invariantHoldsAtReset.withPort _
  | raise rest hc _ => exact (inv_raise h hc).withPort rest
  | init _ hp => exact (inv_doInit h hp).withPort _
  | absorb _ hp hl => exact (inv_absorbed _ h hp hl).withPort _
  | final _ hp => exact (inv_finalized h hp).withPort _

/-- Settles O37: of the kinds of steps only these four write `V`. -/
theorem hashStateWriters : Obligations.HashStateWriters := by
  intro s t hstep
  cases step_kind hstep with
  | idle _ => exact .inl rfl
  | reset hport => exact .inr (.inl ⟨rfl, _, .inl hport⟩)
  | raise _ _ _ => exact .inl rfl
  | init hport _ => exact .inr (.inl ⟨rfl, _, .inr hport⟩)
  | @absorb b rest hport hp _ =>
    by_cases hc : s.CNT.val + 1 < 64
    · exact .inl (absorbed_V_buffers b hc)
    · exact .inr (.inr (.inl ⟨hp, by omega, ⟨b, rest, hport⟩, _, absorbed_V_flushes b hc⟩))
  | final hport hp =>
    refine .inr (.inr (.inr ⟨hp, ⟨_, hport⟩, ?_⟩))
    by_cases hc : s.CNT.val ≤ 55
    · exact .inl ⟨hc, _, finalized_V_one hc⟩
    · have hc' : 56 ≤ s.CNT.val := by omega
      exact .inr ⟨hc', _, _, finalized_V_two hc'⟩

/-- Settles O38: of the kinds of steps only an ABSORB, INIT and reset write `LEN`. -/
theorem lengthNeverWraps : Obligations.LengthNeverWraps := by
  intro s t h hstep
  cases step_kind hstep with
  | idle _ => exact .inl rfl
  | reset hport => exact .inr (.inr ⟨rfl, _, .inl hport⟩)
  | raise _ _ _ => exact .inl rfl
  | init hport _ => exact .inr (.inr ⟨rfl, _, .inr hport⟩)
  | absorb hport hp hl => exact .inr (.inl ⟨toNat_absorbed_LEN_of_inv _ h hp hl, _, _, hport⟩)
  | final _ _ => exact .inl rfl

/-- Settles O19: as a number `2^64 - 8` is `lenMax`, where ABSORB raises; elsewhere it is performed. -/
theorem absorbAtTheLengthLimitFaults : Obligations.AbsorbAtTheLengthLimitFaults := by
  intro s b hp
  have limit : s.LEN.toNat = 2 ^ 64 - 8 ↔ s.LEN = lenMax := by rw [← BitVec.toNat_inj, toNat_lenMax]
  exact ⟨fun hl => ⟨_, exec_absorb_overflow b hp (limit.mp hl), rfl, rfl, rfl, rfl, rfl, rfl, rfl⟩,
    fun hl => ⟨_, exec_absorb_fits b hp (mt limit.mpr hl), (absorbed_PHASE b s).trans hp, absorbed_FCAUSE b s⟩⟩

end Sys2Proof.Machine
end

section
/-! PROOFS. Dead bytes of the buffer are unobservable (spec 10_state.md R23): O39. -/

namespace Sys2Proof.Machine

variable {s t u : State}

/-! ### States alike but in dead bytes -/

/-- Outside ABSORB all of `BUF` is dead. -/
theorem alikeButDead_of_ne_absorb (hp : s.PHASE ≠ .absorb) (words : t.V = s.V) (count : t.CNT = s.CNT) (len : t.LEN = s.LEN)
    (phase : t.PHASE = s.PHASE) (cause : t.FCAUSE = s.FCAUSE) (waiting : t.port = s.port) : s.AlikeButDead t :=
  ⟨words, count, len, phase, cause, waiting, fun h => absurd h hp⟩

theorem State.AlikeButDead.withPort (h : s.AlikeButDead u) (p : List PortEvent) :
    ({ s with port := p } : State).AlikeButDead { u with port := p } :=
  ⟨h.words, h.count, h.len, h.phase, h.cause, rfl, h.live⟩

/-- No output reads `BUF` (R28). -/
theorem State.AlikeButDead.outputs (h : s.AlikeButDead u) : u.phaseO = s.phaseO ∧ u.fcauseO = s.fcauseO ∧
    u.digestValidO = s.digestValidO ∧ u.digestO = s.digestO := by
  refine ⟨congrArg Phase.code h.phase, congrArg Cause.code h.cause, ?_, ?_⟩
  · simp only [State.digestValidO, h.phase]
  · simp only [State.digestO, h.phase, h.words]

/-! ### The commands read live bytes only -/

theorem alike_raise (h : s.AlikeButDead u) (c : Cause) : (s.raise c).AlikeButDead (u.raise c) :=
  alikeButDead_of_ne_absorb nofun h.words h.count h.len rfl rfl h.waiting

theorem alike_applyReset (h : s.AlikeButDead u) : s.applyReset.AlikeButDead u.applyReset :=
  ⟨rfl, rfl, rfl, rfl, rfl, h.waiting, fun _ _ _ => rfl⟩

theorem alike_doInit (h : s.AlikeButDead u) : (doInit s).AlikeButDead (doInit u) :=
  ⟨rfl, rfl, rfl, rfl, h.cause, h.waiting, fun _ _ _ => rfl⟩

/-- ABSORB stores its byte right behind the live ones. -/
theorem read_absorbed_alike (b : Byte) (hs : s.BUF.wf = true) (hu : u.BUF.wf = true) (h : s.AlikeButDead u)
    (hp : s.PHASE = .absorb) {a : Nat} (ha : a ≤ s.CNT.val) :
    (u.BUF.write u.CNT.val b).read a = (s.BUF.write s.CNT.val b).read a := by
  rw [Memory.read_write hu, Memory.read_write hs, h.count]
  split
  · rfl
  · exact h.live hp a (by omega)

theorem alike_absorbed (b : Byte) (hs : s.BUF.wf = true) (hu : u.BUF.wf = true) (h : s.AlikeButDead u)
    (hp : s.PHASE = .absorb) : (absorbed b s).AlikeButDead (absorbed b u) where
  words := by
    by_cases hc : s.CNT.val + 1 < 64
    · have hc' : u.CNT.val + 1 < 64 := by rwa [h.count]
      rw [absorbed_V_buffers b hc, absorbed_V_buffers b hc', h.words]
    · have hc' : ¬ u.CNT.val + 1 < 64 := by rwa [h.count]
      rw [absorbed_V_flushes b hc, absorbed_V_flushes b hc', h.words]
      exact congrArg _ (bytes_congr fun k hk => read_absorbed_alike b hs hu h hp (by omega))
  count := Fin.ext (by rw [absorbed_CNT, absorbed_CNT, h.count])
  len := by rw [absorbed_LEN, absorbed_LEN, h.len]
  phase := by rw [absorbed_PHASE, absorbed_PHASE, h.phase]
  cause := by rw [absorbed_FCAUSE, absorbed_FCAUSE, h.cause]
  waiting := by rw [absorbed_port, absorbed_port, h.waiting]
  live _ a ha := by
    rw [absorbed_CNT] at ha
    rw [absorbed_BUF, absorbed_BUF]
    exact read_absorbed_alike b hs hu h hp (by omega)

/-- FINAL compresses the same block or blocks: R48's bytes below `CNT` are live, the others do not come from `BUF`. -/
theorem finalized_V_alike (hs : s.BUF.wf = true) (hu : u.BUF.wf = true) (h : s.AlikeButDead u) (hp : s.PHASE = .absorb) :
    (finalized u).V = (finalized s).V := by
  have live {x : Nat} {c d : Byte} (hcd : c = d) :
      (if x < s.CNT.val then u.BUF.read x else c) = if x < s.CNT.val then s.BUF.read x else d := by
    split
    · next hx => exact h.live hp x hx
    · exact hcd
  by_cases hc : s.CNT.val ≤ 55
  · have only : Statements.onlyBlock u = Statements.onlyBlock s := by
      simp only [Statements.onlyBlock, h.count, h.len, live rfl]
    rw [(finalized_of_le hu (by rwa [h.count])).1, (finalized_of_le hs hc).1, only, h.words]
  · have hc' : 56 ≤ s.CNT.val := by omega
    have first : Statements.firstOfTwo u = Statements.firstOfTwo s := by
      simp only [Statements.firstOfTwo, h.count, live rfl]
    have second : Statements.secondOfTwo u = Statements.secondOfTwo s := by
      simp only [Statements.secondOfTwo, h.len]
    rw [(finalized_of_ge hu (by rwa [h.count])).1, (finalized_of_ge hs hc').1, first, second, h.words]

theorem alike_finalized (hs : s.BUF.wf = true) (hu : u.BUF.wf = true) (h : s.AlikeButDead u) (hp : s.PHASE = .absorb) :
    (finalized s).AlikeButDead (finalized u) :=
  alikeButDead_of_ne_absorb nofun (finalized_V_alike hs hu h hp) rfl h.len rfl h.cause h.waiting

/-! ### An accepted command and a step -/

theorem exec_alike (i : Instr) (hs : s.BUF.wf = true) (hu : u.BUF.wf = true) (h : s.AlikeButDead u) :
    ∃ t v, exec i s = .next t ∧ exec i u = .next v ∧ t.AlikeButDead v := by
  have phase {p : Phase} (hp : s.PHASE = p) : u.PHASE = p := h.phase.trans hp
  by_cases hf : s.PHASE = .fault
  · exact ⟨s, u, exec_fault i hf, exec_fault i (phase hf), h⟩
  have hp : s.PHASE = .absorb ∨ s.PHASE = .done := by simpa [hf] using phase_cases s
  cases i with
  | init => exact ⟨_, _, exec_init_open hf, exec_init_open (by rwa [h.phase]), alike_doInit h⟩
  | absorb b =>
    rcases hp with hp | hp
    · by_cases hl : s.LEN = lenMax
      · exact ⟨_, _, exec_absorb_overflow b hp hl, exec_absorb_overflow b (phase hp) (h.len.trans hl), alike_raise h _⟩
      · exact ⟨_, _, exec_absorb_fits b hp hl, exec_absorb_fits b (phase hp) (by rwa [h.len]), alike_absorbed b hs hu h hp⟩
    · exact ⟨_, _, exec_absorb_done b hp, exec_absorb_done b (phase hp), alike_raise h _⟩
  | final =>
    rcases hp with hp | hp
    · exact ⟨_, _, exec_final_absorb hp, exec_final_absorb (phase hp), alike_finalized hs hu h hp⟩
    · exact ⟨_, _, exec_final_done hp, exec_final_done (phase hp), alike_raise h _⟩

theorem performEvent_alike (e : PortEvent) (hs : s.BUF.wf = true) (hu : u.BUF.wf = true) (h : s.AlikeButDead u) :
    ∃ t v, performEvent e s = .next t ∧ performEvent e u = .next v ∧ t.AlikeButDead v := by
  cases e with
  | rst => exact ⟨s.applyReset, u.applyReset, rfl, rfl, alike_applyReset h⟩
  | cmd cw =>
    simp only [performEvent]
    cases hd : decode cw with
    | ok i =>
      rw [acceptWord_legal hd, acceptWord_legal hd]
      exact exec_alike i hs hu h
    | error e =>
      rw [acceptWord_illegal hd, acceptWord_illegal hd]
      by_cases hf : s.PHASE = .fault
      · exact ⟨s, u, illegalWord_fault hf, illegalWord_fault (h.phase.trans hf), h⟩
      · exact ⟨_, _, illegalWord_open hf, illegalWord_open (by rwa [h.phase]), alike_raise h _⟩

theorem step_alike (hs : s.BUF.wf = true) (hu : u.BUF.wf = true) (h : s.AlikeButDead u) :
    ∃ t v, step s = .next t ∧ step u = .next v ∧ t.AlikeButDead v := by
  cases hport : s.port with
  | nil => exact ⟨s, u, step_nil hport, step_nil (h.waiting.trans hport), h⟩
  | cons e rest =>
    rw [step_cons hport, step_cons (h.waiting.trans hport)]
    exact performEvent_alike e hs hu (h.withPort rest)

/-! ### The obligation -/

/-- Settles O39: the commands read live bytes only, and no output reads `BUF`. -/
theorem deadBytesAreUnobservable : Obligations.DeadBytesAreUnobservable := by
  intro s u t hs hu h hstep
  obtain ⟨t', v, ht', hv, halike⟩ := step_alike hs hu h
  obtain rfl : t' = t := by simpa [ht'] using hstep
  exact ⟨v, hv, halike, halike.outputs⟩

end Sys2Proof.Machine
end

section
/-! PROOFS. Accumulating a message: by ABSORBs and by chunks (spec 41_accumulate.md R102, R103, R106): O40, O41, O42. -/

namespace Sys2Proof.Machine

variable {s t : State} {V : HashWords} {M : List Byte}

theorem blockOf_drop_getElem (l : List Byte) (k : Nat) {x : Nat} (hx : x < 64) :
    (blockOf (l.drop k))[x] = l.getD (k + x) 0x00 := by
  simp [blockOf, List.getD_eq_getElem?_getD]

/-! ### What a state has accumulated -/

/-- Since its hash state was `V` the accumulator has taken the bytes `M`: the whole blocks of `M` are compressed into `V`, the
rest of `M` stands in the buffer. R106's `State.HoldsPrefix` is the case `V = IV` in phase ABSORB; R103 is about any `V`. -/
structure State.Accumulated (V : HashWords) (M : List Byte) (s : State) : Prop where
  words : s.V = compressBlocks (M.length / 64) V M
  count : s.CNT.val = M.length % 64
  buffered : ∀ a, a < M.length % 64 → s.BUF.read a = M.getD (64 * (M.length / 64) + a) 0x00
  buf_wf : s.BUF.wf = true

theorem State.HoldsPrefix.accumulated (h : s.HoldsPrefix M) : s.Accumulated IV M := ⟨h.words, h.count, h.buffered, h.buf_wf⟩

theorem State.Accumulated.holdsPrefix (h : s.Accumulated IV M) (hp : s.PHASE = .absorb) (hM : M.length ≤ 2 ^ 61 - 1)
    (hlen : s.LEN.toNat = 8 * M.length) : s.HoldsPrefix M :=
  ⟨hp, hM, h.words, h.count, h.buffered, hlen, h.buf_wf⟩

theorem accumulated_doInit (s : State) : (doInit s).Accumulated IV [] where
  words := rfl
  count := rfl
  buffered := by simp
  buf_wf := Memory.wf_cleared

/-- The buffered bytes, in order. -/
def State.pending (s : State) : List Byte := (s.BUF.bytes 0 s.CNT.val).toList

@[simp] theorem State.length_pending (s : State) : s.pending.length = s.CNT.val := Vector.length_toList

/-- Every state has accumulated its buffered bytes since its own hash state. -/
theorem accumulated_pending (hm : s.BUF.wf = true) : s.Accumulated s.V s.pending where
  words := by
    rw [s.length_pending, Nat.div_eq_of_lt s.CNT.isLt, compressBlocks]
  count := by rw [s.length_pending, Nat.mod_eq_of_lt s.CNT.isLt]
  buffered a ha := by
    rw [s.length_pending, Nat.mod_eq_of_lt s.CNT.isLt] at ha
    rw [s.length_pending, Nat.div_eq_of_lt s.CNT.isLt, List.getD_eq_getElem _ _ (by simpa using ha)]
    simp [State.pending]
  buf_wf := hm

/-! ### Bytes written behind the buffered ones -/

namespace State.Accumulated

/-- The buffer after a write of `bs` at `CNT`, up to the end of `bs`. -/
theorem read_writeBytes (h : s.Accumulated V M) {bs : List Byte} (hfit : M.length % 64 + bs.length ≤ 64) {x : Nat}
    (hx : x < M.length % 64 + bs.length) :
    (s.BUF.writeBytes s.CNT.val bs).read x = (M ++ bs).getD (64 * (M.length / 64) + x) 0x00 := by
  have hM := Nat.div_add_mod M.length 64
  rw [Memory.read_writeBytes h.buf_wf (by rwa [h.count]), h.count]
  by_cases hlow : x < M.length % 64
  · rw [if_neg (by omega), h.buffered x hlow, List.getD_append _ _ _ _ (by omega)]
  · rw [if_pos (by omega), List.getD_append_right _ _ _ _ (by omega)]
    congr 1
    omega

theorem wf_writeBytes (h : s.Accumulated V M) {bs : List Byte} (hfit : M.length % 64 + bs.length ≤ 64) :
    (s.BUF.writeBytes s.CNT.val bs).wf = true :=
  Memory.wf_writeBytes h.buf_wf (by rwa [h.count])

/-- Bytes that do not complete the block are buffered. -/
theorem buffers (h : s.Accumulated V M) {bs : List Byte} (hfit : M.length % 64 + bs.length < 64) (hV : t.V = s.V)
    (hcnt : t.CNT.val = s.CNT.val + bs.length) (hbuf : t.BUF = s.BUF.writeBytes s.CNT.val bs) :
    t.Accumulated V (M ++ bs) := by
  have hlen : (M ++ bs).length = M.length + bs.length := List.length_append
  have hdiv : (M ++ bs).length / 64 = M.length / 64 := by omega
  have hmod : (M ++ bs).length % 64 = M.length % 64 + bs.length := by omega
  refine ⟨?_, ?_, fun a ha => ?_, ?_⟩
  · rw [hV, h.words, hdiv, compressBlocks_append V (by omega)]
  · rw [hcnt, h.count, hmod]
  · rw [hbuf, h.read_writeBytes hfit.le (by omega), hdiv]
  · rw [hbuf]
    exact h.wf_writeBytes hfit.le

/-- Bytes that complete the block exactly are compressed with it. -/
theorem flushes (h : s.Accumulated V M) {bs : List Byte} (hfit : M.length % 64 + bs.length = 64)
    (hbuf : t.BUF = s.BUF.writeBytes s.CNT.val bs) (hV : t.V = compress s.V (t.BUF.bytes 0 64)) (hcnt : t.CNT = 0) :
    t.Accumulated V (M ++ bs) := by
  have hlen : (M ++ bs).length = M.length + bs.length := List.length_append
  have hdiv : (M ++ bs).length / 64 = M.length / 64 + 1 := by omega
  have hmod : (M ++ bs).length % 64 = 0 := by omega
  have hblock : t.BUF.bytes 0 64 = blockOf ((M ++ bs).drop (64 * (M.length / 64))) := by
    ext x hx : 1
    rw [Memory.bytes_getElem, Nat.zero_add, hbuf, h.read_writeBytes hfit.le (by omega), blockOf_drop_getElem _ _ hx]
  refine ⟨?_, ?_, fun a ha => by omega, ?_⟩
  · rw [hV, hblock, h.words, hdiv, compressBlocks_succ, compressBlocks_append V (by omega)]
  · rw [hcnt, hmod]
    rfl
  · rw [hbuf]
    exact h.wf_writeBytes hfit.le

/-- States that have accumulated the same bytes since the same hash state agree in `V`, `CNT` and the live bytes. -/
theorem agree (h : s.Accumulated V M) (h' : t.Accumulated V M) :
    t.V = s.V ∧ t.CNT = s.CNT ∧ ∀ a, a < t.CNT.val → t.BUF.read a = s.BUF.read a := by
  refine ⟨h'.words.trans h.words.symm, Fin.ext (h'.count.trans h.count.symm), fun a ha => ?_⟩
  rw [h'.count] at ha
  rw [h'.buffered a ha, h.buffered a ha]

end State.Accumulated

/-! ### ABSORB -/

theorem accumulated_absorbed (h : s.Accumulated V M) (b : Byte) : (absorbed b s).Accumulated V (M ++ [b]) := by
  have hcnt := h.count
  have hbuf : (absorbed b s).BUF = s.BUF.writeBytes s.CNT.val [b] := absorbed_BUF b s
  by_cases hc : s.CNT.val + 1 < 64
  · exact h.buffers (by simpa [← hcnt]) (absorbed_V_buffers b hc) (by rw [absorbed_CNT, Nat.mod_eq_of_lt hc]; rfl) hbuf
  · refine h.flushes (by simp; omega) hbuf ?_ (Fin.ext ?_)
    · rw [absorbed_V_flushes b hc, absorbed_BUF]
    · rw [absorbed_CNT]
      simp
      omega

/-- The state after the ABSORBs of `data`, none of which overflows. -/
def absorbedAll (data : List Byte) (s : State) : State := data.foldl (fun s b => absorbed b s) s

theorem absorbedAll_cons (b : Byte) (data : List Byte) (s : State) :
    absorbedAll (b :: data) s = absorbedAll data (absorbed b s) := rfl

@[simp] theorem absorbedAll_PHASE (data : List Byte) (s : State) : (absorbedAll data s).PHASE = s.PHASE := by
  induction data generalizing s with
  | nil => rfl
  | cons b data ih => rw [absorbedAll_cons, ih, absorbed_PHASE]

@[simp] theorem absorbedAll_FCAUSE (data : List Byte) (s : State) : (absorbedAll data s).FCAUSE = s.FCAUSE := by
  induction data generalizing s with
  | nil => rfl
  | cons b data ih => rw [absorbedAll_cons, ih, absorbed_FCAUSE]

theorem absorbedAll_LEN (data : List Byte) (s : State) :
    (absorbedAll data s).LEN = s.LEN + BitVec.ofNat 64 (8 * data.length) := by
  induction data generalizing s with
  | nil => exact (BitVec.add_zero s.LEN).symm
  | cons b data ih =>
    rw [absorbedAll_cons, ih, absorbed_LEN, List.length_cons, Nat.mul_succ, Nat.add_comm, BitVec.ofNat_add, BitVec.add_assoc]
    rfl

theorem accumulated_absorbedAll (h : s.Accumulated V M) (data : List Byte) :
    (absorbedAll data s).Accumulated V (M ++ data) := by
  induction data generalizing s M with
  | nil => rwa [List.append_nil]
  | cons b data ih =>
    rw [absorbedAll_cons, List.append_cons]
    exact ih (accumulated_absorbed h b)

/-- `run_update_fits` with the state named. -/
theorem run_update_eq {data : List Byte} (hp : s.PHASE = .absorb) (hfit : s.LEN.toNat + 8 * data.length < 2 ^ 64) :
    run (commandEvents (updateCommands data)) s = .next (absorbedAll data s) := by
  induction data generalizing s with
  | nil => rfl
  | cons b data ih =>
    rw [List.length_cons] at hfit
    have hne : s.LEN ≠ lenMax := fun h => by rw [h, toNat_lenMax] at hfit; omega
    have hlen := toNat_absorbed_LEN (s := s) b (by omega)
    rw [updateCommands_cons, run_commandEvents_cons (exec_absorb_fits b hp hne), absorbedAll_cons,
      ih ((absorbed_PHASE b s).trans hp) (by omega)]

theorem toNat_absorbedAll_LEN {data : List Byte} (hfit : s.LEN.toNat + 8 * data.length < 2 ^ 64) :
    (absorbedAll data s).LEN.toNat = s.LEN.toNat + 8 * data.length := by
  have hsmall : (BitVec.ofNat 64 (8 * data.length)).toNat = 8 * data.length := by
    rw [BitVec.toNat_ofNat, Nat.mod_eq_of_lt (by omega)]
  rw [absorbedAll_LEN, BitVec.toNat_add_of_lt (by rwa [hsmall]), hsmall]

/-! ### The chunk form -/

/-- The state in which `update` leaves the accumulator where it applies (R102). -/
def chunked (data : List Byte) (s : State) : State :=
  let r := topUp data { s with LEN := s.LEN + BitVec.ofNat 64 (8 * data.length) }
  feedRest r.1 r.2

theorem updateChunk_of_fits {data : List Byte} (hp : s.PHASE = .absorb)
    (hfit : s.LEN.toNat + 8 * data.length < 2 ^ 64) : updateChunk data s = some (chunked data s) :=
  if_pos ⟨hp, hfit⟩

theorem updateChunk_eq_some {data : List Byte} {u : State} (h : updateChunk data s = some u) :
    s.PHASE = .absorb ∧ s.LEN.toNat + 8 * data.length < 2 ^ 64 ∧ u = chunked data s := by
  by_cases hfits : s.PHASE = .absorb ∧ s.LEN.toNat + 8 * data.length < 2 ^ 64
  · obtain ⟨hp, hfit⟩ := hfits
    rw [updateChunk_of_fits hp hfit] at h
    exact ⟨hp, hfit, (Option.some.inj h).symm⟩
  · rw [updateChunk, if_neg hfits] at h
    cases h

/-- Filling the buffer touches none of these. -/
theorem topUp_frame (data : List Byte) (s : State) :
    (topUp data s).1.LEN = s.LEN ∧ (topUp data s).1.PHASE = s.PHASE ∧ (topUp data s).1.FCAUSE = s.FCAUSE := by
  unfold topUp
  dsimp only
  split_ifs <;> exact ⟨rfl, rfl, rfl⟩

theorem chunked_LEN (data : List Byte) (s : State) :
    (chunked data s).LEN = s.LEN + BitVec.ofNat 64 (8 * data.length) :=
  (topUp_frame data _).1

theorem chunked_PHASE (data : List Byte) (s : State) : (chunked data s).PHASE = s.PHASE := (topUp_frame data _).2.1

theorem chunked_FCAUSE (data : List Byte) (s : State) : (chunked data s).FCAUSE = s.FCAUSE := (topUp_frame data _).2.2

theorem feedRest_nil (s : State) : feedRest s [] = s := by
  simp [feedRest, compressBlocks, Memory.writeBytes]

/-- The buffer takes the front of the chunk; then the chunk is used up or the buffer is empty. -/
theorem accumulated_topUp (h : s.Accumulated V M) (data : List Byte) :
    ∃ front, front ++ (topUp data s).2 = data ∧ (topUp data s).1.Accumulated V (M ++ front) ∧
      ((topUp data s).2 = [] ∨ (topUp data s).1.CNT = 0) := by
  have hcnt := h.count
  by_cases hpos : s.CNT.val > 0
  · refine ⟨data.take (min (64 - s.CNT.val) data.length), ?_⟩
    have htake : (data.take (min (64 - s.CNT.val) data.length)).length = min (64 - s.CNT.val) data.length := by simp
    simp only [topUp, if_pos hpos]
    split
    · next hlt =>
      refine ⟨List.take_append_drop _ _, h.buffers (by omega) rfl (by rw [htake]) rfl, .inl ?_⟩
      exact List.drop_eq_nil_of_le (by omega)
    · next hge =>
      exact ⟨List.take_append_drop _ _, h.flushes (by omega) rfl rfl rfl, .inr rfl⟩
  · refine ⟨[], ?_⟩
    simp only [topUp, if_neg hpos, List.nil_append, List.append_nil, true_and]
    exact ⟨h, .inr (Fin.ext (by simpa using hpos))⟩

/-- Whole blocks go past an empty buffer (R102). -/
theorem accumulated_wholeBlocks (h : s.Accumulated V M) (hempty : s.CNT = 0) {q : Nat} {data : List Byte} (hq : 64 * q ≤ data.length) :
    ({ s with V := compressBlocks q s.V data } : State).Accumulated V (M ++ data.take (64 * q)) := by
  have hcnt : M.length % 64 = 0 := by rw [← h.count, hempty]; rfl
  have hM : 64 * (M.length / 64) = M.length := by omega
  have hlen : (M ++ data.take (64 * q)).length = M.length + 64 * q := by rw [List.length_append, List.length_take_of_le hq]
  have hdiv : (M ++ data.take (64 * q)).length / 64 = M.length / 64 + q := by omega
  have hmod : (M ++ data.take (64 * q)).length % 64 = 0 := by omega
  refine ⟨?_, by rw [hmod, hempty]; rfl, fun a ha => by omega, h.buf_wf⟩
  rw [hdiv, compressBlocks_add, compressBlocks_append V hM.le, ← h.words, hM, List.drop_left]
  conv_lhs => rw [← List.take_append_drop (64 * q) data]
  exact compressBlocks_append s.V (by simp [hq]) _

theorem accumulated_feedRest (h : s.Accumulated V M) {data : List Byte} (hdata : data = [] ∨ s.CNT = 0) :
    (feedRest s data).Accumulated V (M ++ data) := by
  rcases hdata with rfl | hempty
  · rwa [List.append_nil, feedRest_nil]
  · have hsplit : M ++ data = M ++ data.take (64 * (data.length / 64)) ++ data.drop (64 * (data.length / 64)) := by
      rw [List.append_assoc, List.take_append_drop]
    have hblocks := accumulated_wholeBlocks h hempty (q := data.length / 64) (data := data) (by omega)
    have hrest : (data.drop (64 * (data.length / 64))).length < 64 := by
      rw [List.length_drop]
      omega
    have hcnt : s.CNT.val = 0 := congrArg Fin.val hempty
    rw [hsplit]
    refine hblocks.buffers ?_ rfl ?_ rfl
    · have hzero : (M ++ data.take (64 * (data.length / 64))).length % 64 = 0 := hblocks.count.symm.trans hcnt
      omega
    · simp only [feedRest, Fin.val_ofNat]
      omega

theorem accumulated_chunked (h : s.Accumulated V M) (data : List Byte) : (chunked data s).Accumulated V (M ++ data) := by
  have h' : ({ s with LEN := s.LEN + BitVec.ofNat 64 (8 * data.length) } : State).Accumulated V M :=
    ⟨h.words, h.count, h.buffered, h.buf_wf⟩
  obtain ⟨front, hdata, hfront, hrest⟩ := accumulated_topUp h' data
  have hall := accumulated_feedRest hfront hrest
  rwa [List.append_assoc, hdata] at hall

/-! ### A message that fits (R106) -/

theorem holdsPrefix_absorbedAll {M' : List Byte} (h : s.HoldsPrefix M) (hM : (M ++ M').length ≤ 2 ^ 61 - 1) :
    (absorbedAll M' s).HoldsPrefix (M ++ M') := by
  have hlen := h.len
  rw [List.length_append] at hM
  refine (accumulated_absorbedAll h.accumulated M').holdsPrefix ((absorbedAll_PHASE M' s).trans h.phase) (by simpa using hM) ?_
  rw [toNat_absorbedAll_LEN (by omega), hlen, List.length_append]
  omega

theorem holdsPrefix_doInit (s : State) : (doInit s).HoldsPrefix [] :=
  (accumulated_doInit s).holdsPrefix rfl (by simp) rfl

theorem holdsPrefix_reset : State.reset.HoldsPrefix [] := holdsPrefix_doInit State.reset

theorem State.HoldsPrefix.run_update {M' : List Byte} (h : s.HoldsPrefix M) (hM : (M ++ M').length ≤ 2 ^ 61 - 1) :
    run (commandEvents (updateCommands M')) s = .next (absorbedAll M' s) := by
  have hlen := h.len
  rw [List.length_append] at hM
  exact run_update_eq h.phase (by omega)

/-! ### The obligations -/

/-- Settles O40: one ABSORB away from the limit is `absorbedAll` of one byte. -/
theorem absorbExtendsThePrefix : Obligations.AbsorbExtendsThePrefix := by
  intro s M b h hM
  have hlen := h.len
  have hne : s.LEN ≠ lenMax := fun hl => by rw [hl, toNat_lenMax] at hlen; omega
  exact ⟨absorbed b s, exec_absorb_fits b h.phase hne, holdsPrefix_absorbedAll (M' := [b]) h (by simp; omega)⟩

/-- Settles O41: INIT holds the empty message, and the bytes follow. -/
theorem prefixOfAnyMessage : Obligations.PrefixOfAnyMessage := by
  intro s M hp hM
  refine ⟨absorbedAll M (doInit s), ?_, holdsPrefix_absorbedAll (holdsPrefix_doInit s) hM,
    absorbedAll_FCAUSE M (doInit s)⟩
  rw [newCommands, List.singleton_append, run_commandEvents_cons (exec_init_open hp)]
  exact (holdsPrefix_doInit s).run_update hM

/-- Settles O42: chunk and ABSORBs both accumulate `data` behind the bytes pending in `s`. -/
theorem chunkEqualsItsBytes : Obligations.ChunkEqualsItsBytes := by
  intro s u data hm hu
  obtain ⟨hp, hfit, rfl⟩ := updateChunk_eq_some hu
  have hpending := accumulated_pending hm
  obtain ⟨hV, hcnt, hlive⟩ := (accumulated_chunked hpending data).agree (accumulated_absorbedAll hpending data)
  exact ⟨absorbedAll data s, run_update_eq hp hfit, hV, hcnt,
    (absorbedAll_LEN data s).trans (chunked_LEN data s).symm, hlive, (absorbedAll_PHASE data s).trans hp,
    (chunked_PHASE data s).trans hp, (absorbedAll_FCAUSE data s).trans (chunked_FCAUSE data s).symm⟩

end Sys2Proof.Machine
end

section
/-! PROOFS. The padded message and the whole hash (spec 42_finalize.md R120, R123, R126, R127, 70_reset_and_hazards.md R171,
95_test_vectors.md V1, V2): O45, O43, O44, O48. -/

namespace Sys2Proof.Machine

variable {s t : State} {M : List Byte}

/-! ### The padded message -/

theorem zeroCount_eq_ite (n : Nat) : zeroCount n = if n % 64 ≤ 55 then 55 - n % 64 else 119 - n % 64 := by
  unfold zeroCount
  split <;> omega

/-- Where the length suffix begins (R123). -/
theorem length_add_zeroCount (n : Nat) : n + 1 + zeroCount n = 64 * ((n + 8) / 64) + 56 := by
  rw [zeroCount_eq_ite]
  split <;> omega

theorem length_padded (M : List Byte) : (padded M).length = 64 * ((M.length + 8) / 64 + 1) := by
  have hzeros := length_add_zeroCount M.length
  simp only [padded, List.length_append, List.length_cons, List.length_replicate, Vector.length_toList]
  omega

/-- Settles O45: message, marker and zeros end 8 bytes short of a block, and the suffix fills it. -/
theorem paddedLength : Obligations.PaddedLength := fun M => ⟨length_padded M, zeroCount_eq_ite M.length⟩

theorem getD_padded_message {i : Nat} (hi : i < M.length) : (padded M).getD i 0x00 = M.getD i 0x00 := by
  rw [padded, List.append_assoc, List.getD_append _ _ _ _ hi]

theorem getD_padded_marker (M : List Byte) : (padded M).getD M.length 0x00 = 0x80 := by
  rw [padded, List.append_assoc, List.getD_append_right _ _ _ _ le_rfl]
  simp

theorem getD_padded_zero {i : Nat} (hi : M.length < i) (hi' : i < 64 * ((M.length + 8) / 64) + 56) :
    (padded M).getD i 0x00 = 0x00 := by
  have hzeros := length_add_zeroCount M.length
  rw [padded, List.append_assoc, List.getD_append_right _ _ _ _ hi.le, List.cons_append,
    show i - M.length = i - M.length - 1 + 1 by omega, List.getD_cons_succ,
    List.getD_append _ _ _ _ (by rw [List.length_replicate]; omega), List.getD_replicate _ (by omega)]

theorem getD_padded_suffix (M : List Byte) {k : Nat} (hk : k < 8) :
    (padded M).getD (64 * ((M.length + 8) / 64) + 56 + k) 0x00 =
      (BitVec.ofNat 64 (8 * M.length)).extractLsb' (8 * (7 - k)) 8 := by
  have hlen : (M ++ 0x80 :: List.replicate (zeroCount M.length) (0x00 : Byte)).length =
      64 * ((M.length + 8) / 64) + 56 := by
    rw [← length_add_zeroCount]
    simp
    omega
  rw [padded, List.getD_append_right _ _ _ _ (by omega), hlen, Nat.add_sub_cancel_left,
    List.getD_eq_getElem _ _ (by simpa using hk), Vector.getElem_toList]
  exact lengthSuffix_getElem _ hk

/-! ### The blocks of FINAL are the last ones of the padded message -/

theorem State.HoldsPrefix.len_eq (h : s.HoldsPrefix M) : s.LEN = BitVec.ofNat 64 (8 * M.length) := by
  rw [← h.len, BitVec.ofNat_toNat, BitVec.setWidth_eq]

/-- The bytes that are buffered, in the padded message. -/
theorem State.HoldsPrefix.getD_padded (h : s.HoldsPrefix M) {x : Nat} (hx : x < s.CNT.val) :
    (padded M).getD (64 * (M.length / 64) + x) 0x00 = s.BUF.read x := by
  rw [h.count] at hx
  rw [getD_padded_message (by omega), h.buffered x hx]

theorem onlyBlock_eq_blockOf (h : s.HoldsPrefix M) (hn : s.CNT.val ≤ 55) :
    Statements.onlyBlock s = blockOf ((padded M).drop (64 * (M.length / 64))) := by
  have hcnt := h.count
  have hdiv : (M.length + 8) / 64 = M.length / 64 := by omega
  ext x hx : 1
  rw [blockOf_drop_getElem _ _ hx, Statements.onlyBlock, Vector.getElem_ofFn]
  dsimp only
  split_ifs with hmsg hmark hzero
  · exact (h.getD_padded hmsg).symm
  · rw [hmark, hcnt, Nat.div_add_mod, getD_padded_marker]
  · rw [getD_padded_zero (by omega) (by omega)]
  · have hpos : 64 * (M.length / 64) + x = 64 * ((M.length + 8) / 64) + 56 + (x - 56) := by omega
    have hstart : 7 - (x - 56) = 63 - x := by omega
    rw [hpos, getD_padded_suffix M (by omega), h.len_eq, hstart]

theorem firstOfTwo_eq_blockOf (h : s.HoldsPrefix M) (hn : 56 ≤ s.CNT.val) :
    Statements.firstOfTwo s = blockOf ((padded M).drop (64 * (M.length / 64))) := by
  have hcnt := h.count
  have hdiv : (M.length + 8) / 64 = M.length / 64 + 1 := by omega
  ext x hx : 1
  rw [blockOf_drop_getElem _ _ hx, Statements.firstOfTwo, Vector.getElem_ofFn]
  dsimp only
  split_ifs with hmsg hmark
  · exact (h.getD_padded hmsg).symm
  · rw [hmark, hcnt, Nat.div_add_mod, getD_padded_marker]
  · rw [getD_padded_zero (by omega) (by omega)]

theorem secondOfTwo_eq_blockOf (h : s.HoldsPrefix M) (hn : 56 ≤ s.CNT.val) :
    Statements.secondOfTwo s = blockOf ((padded M).drop (64 * (M.length / 64 + 1))) := by
  have hcnt := h.count
  have hdiv : (M.length + 8) / 64 = M.length / 64 + 1 := by omega
  ext x hx : 1
  rw [blockOf_drop_getElem _ _ hx, Statements.secondOfTwo, Vector.getElem_ofFn]
  dsimp only
  split_ifs with hzero
  · rw [getD_padded_zero (by omega) (by omega)]
  · have hpos : 64 * (M.length / 64 + 1) + x = 64 * ((M.length + 8) / 64) + 56 + (x - 56) := by omega
    have hstart : 7 - (x - 56) = 63 - x := by omega
    rw [hpos, getD_padded_suffix M (by omega), h.len_eq, hstart]

/-- The hash state holds the compress of the whole blocks, padding or not (R106). -/
theorem State.HoldsPrefix.words_padded (h : s.HoldsPrefix M) : compressBlocks (M.length / 64) IV (padded M) = s.V := by
  rw [padded, List.append_assoc, compressBlocks_append IV (by omega), h.words]

/-- FINAL ends with the compress of the padded message's blocks, one or two behind those already compressed (R126). -/
theorem finalized_V_eq_compressBlocks (h : s.HoldsPrefix M) :
    (finalized s).V = compressBlocks ((padded M).length / 64) IV (padded M) := by
  have hcnt := h.count
  rw [length_padded, Nat.mul_div_cancel_left _ (by decide)]
  by_cases hn : s.CNT.val ≤ 55
  · have hdiv : (M.length + 8) / 64 = M.length / 64 := by omega
    rw [(finalized_of_le h.buf_wf hn).1, onlyBlock_eq_blockOf h hn, hdiv, compressBlocks_succ, h.words_padded]
  · have hn' : 56 ≤ s.CNT.val := by omega
    have hdiv : (M.length + 8) / 64 = M.length / 64 + 1 := by omega
    rw [(finalized_of_ge h.buf_wf hn').1, firstOfTwo_eq_blockOf h hn', secondOfTwo_eq_blockOf h hn', hdiv,
      compressBlocks_succ, compressBlocks_succ, h.words_padded]

/-- After FINAL the digest is the hash of the message held (R126). -/
theorem digestBytes_finalized (h : s.HoldsPrefix M) : digestBytes (finalized s).V = hashOf M := by
  rw [finalized_V_eq_compressBlocks h, hashOf]

/-! ### Messages in commands and in chunks -/

/-- The bytes of a message and FINAL, from a state that holds nothing. -/
theorem run_update_final (h : s.HoldsPrefix []) (hM : M.length ≤ 2 ^ 61 - 1) :
    run (commandEvents (updateCommands M ++ [.final])) s = .next (finalized (absorbedAll M s)) := by
  rw [commandEvents_append, run_append (h.run_update hM)]
  exact run_commandEvents_cons (exec_final_absorb (holdsPrefix_absorbedAll h hM).phase) []

theorem run_hash (hp : s.PHASE ≠ .fault) (hM : M.length ≤ 2 ^ 61 - 1) :
    run (commandEvents (hashCommands M)) s = .next (finalized (absorbedAll M (doInit s))) := by
  rw [hashCommands, newCommands, List.append_assoc, List.singleton_append, run_commandEvents_cons (exec_init_open hp),
    run_update_final (holdsPrefix_doInit s) hM]

theorem holdsPrefix_chunked {data : List Byte} (h : s.HoldsPrefix M) (hM : (M ++ data).length ≤ 2 ^ 61 - 1) :
    updateChunk data s = some (chunked data s) ∧ (chunked data s).HoldsPrefix (M ++ data) := by
  have hlen := h.len
  rw [List.length_append] at hM
  have hfit : s.LEN.toNat + 8 * data.length < 2 ^ 64 := by omega
  refine ⟨updateChunk_of_fits h.phase hfit, (accumulated_chunked h.accumulated data).holdsPrefix
    ((chunked_PHASE data s).trans h.phase) (by simpa using hM) ?_⟩
  rw [chunked_LEN, ← absorbedAll_LEN, toNat_absorbedAll_LEN hfit, hlen, List.length_append]
  omega

/-- By induction on the chunks, each accumulated behind those before it. -/
theorem foldlM_updateChunk (chunks : List (List Byte)) (h : s.HoldsPrefix M)
    (hM : (M ++ chunks.flatten).length ≤ 2 ^ 61 - 1) :
    ∃ u, chunks.foldlM (fun s data => updateChunk data s) s = some u ∧ u.HoldsPrefix (M ++ chunks.flatten) := by
  induction chunks generalizing s M with
  | nil => exact ⟨s, rfl, by rwa [List.flatten_nil, List.append_nil]⟩
  | cons data chunks ih =>
    rw [List.flatten_cons, ← List.append_assoc] at hM ⊢
    have hfirst : (M ++ data).length ≤ 2 ^ 61 - 1 := by
      rw [List.length_append] at hM
      omega
    obtain ⟨hchunk, hheld⟩ := holdsPrefix_chunked h hfirst
    obtain ⟨u, hu, hholds⟩ := ih hheld hM
    exact ⟨u, by rw [List.foldlM_cons, hchunk]; exact hu, hholds⟩

/-! ### The obligations -/

/-- Settles O43: the chunks leave the joined message held, and FINAL publishes its hash. -/
theorem chunkingNeverAffectsTheDigest : Obligations.ChunkingNeverAffectsTheDigest := by
  intro chunks hlen
  obtain ⟨u, hu, hholds⟩ := foldlM_updateChunk chunks holdsPrefix_reset hlen
  exact ⟨u, finalized u, hu, exec_final_absorb hholds.phase, digestValidO_done _ rfl, digestBytes_finalized hholds⟩

/-- Settles O44: INIT, or reset, holds the empty message, the bytes follow, and FINAL publishes the hash. -/
theorem hashIsTheClosedForm : Obligations.HashIsTheClosedForm := by
  refine fun M hM => ⟨fun s hp => ?_, ?_⟩
  · have hheld : (absorbedAll M (doInit s)).HoldsPrefix M := holdsPrefix_absorbedAll (holdsPrefix_doInit s) hM
    exact ⟨_, run_hash hp hM, rfl, digestValidO_done _ rfl, digestBytes_finalized hheld, rfl, hheld.len,
      absorbedAll_FCAUSE M (doInit s)⟩
  · have hheld : (absorbedAll M State.reset).HoldsPrefix M := holdsPrefix_absorbedAll holdsPrefix_reset hM
    exact ⟨_, run_update_final holdsPrefix_reset hM, digestValidO_done _ rfl, digestBytes_finalized hheld⟩

/-- Settles O48: the published state is named, and its two digests are evaluated. -/
theorem abcAndEmptyDigests : Obligations.AbcAndEmptyDigests := by
  refine ⟨⟨_, run_hash (by decide) (by decide), digestValidO_done _ rfl, ?_⟩,
    ⟨_, run_hash (by decide) (by decide), digestValidO_done _ rfl, ?_⟩⟩
  · decide +kernel
  · decide +kernel

end Sys2Proof.Machine
end

section
/-! PROOFS. Access to the block buffer within and outside its 64 bytes (spec 20_memory.md R52): O27, O28. -/

namespace Sys2Proof.Machine

/-! ### Stored bytes -/

theorem read_writeBytes_stored {m : Memory} (hm : m.wf = true) {addr n : Nat} (v : Vector Byte n) (h : addr + n ≤ 64)
    {k : Nat} (hk : k < n) : (m.writeBytes addr v.toList).read (addr + k) = v[k] := by
  have hin : addr ≤ addr + k ∧ addr + k < addr + v.toList.length := by
    rw [Vector.length_toList]
    omega
  rw [Memory.read_writeBytes hm (by rwa [Vector.length_toList]), if_pos hin, Nat.add_sub_cancel_left,
    List.getD_eq_getElem _ _ (by rwa [Vector.length_toList]), Vector.getElem_toList]

theorem read_writeBytes_outside {m : Memory} (hm : m.wf = true) {addr n : Nat} (v : Vector Byte n) (h : addr + n ≤ 64)
    {a : Nat} (ha : a < addr ∨ addr + n ≤ a) : (m.writeBytes addr v.toList).read a = m.read a := by
  have hout : ¬ (addr ≤ a ∧ a < addr + v.toList.length) := by
    rw [Vector.length_toList]
    omega
  rw [Memory.read_writeBytes hm (by rwa [Vector.length_toList]), if_neg hout]

theorem bytes_writeBytes {m : Memory} (hm : m.wf = true) {addr n : Nat} (v : Vector Byte n) (h : addr + n ≤ 64) :
    (m.writeBytes addr v.toList).bytes addr n = v := by
  ext k hk : 1
  rw [Memory.bytes_getElem, read_writeBytes_stored hm v h hk]

/-- Settles O27: within the buffer both accesses succeed, and what is stored is read back. -/
theorem bufferAccessWithinBounds : Obligations.BufferAccessWithinBounds := by
  intro m addr n v hm h
  have hwrite := memWrite_within m v h
  refine ⟨⟨_, hwrite, wf_of_memWrite hm hwrite, fun k hk => read_writeBytes_stored hm v h hk,
    fun a ha => read_writeBytes_outside hm v h ha, ?_⟩,
    ⟨m.bytes addr n, memRead_within m h, fun k hk => Memory.bytes_getElem m addr n k hk⟩⟩
  rw [memRead_within _ h, bytes_writeBytes hm v h]

/-- Settles O28: both accesses test the same bound. -/
theorem bufferAccessOutOfBoundsStops : Obligations.BufferAccessOutOfBoundsStops :=
  fun m _ _ v h => ⟨memWrite_outside m v (not_le.mpr h), memRead_outside m (not_le.mpr h)⟩

end Sys2Proof.Machine
end

section
/-! PROOFS. The assembler's words (spec 30_encoding.md R67, R68): O47. -/

namespace Sys2Proof.Machine

/-- The word of ABSORB as a number (R61, R67). -/
theorem encode_absorb_ofNat {b : Nat} (hb : b < 256) :
    encode (.absorb (BitVec.ofNat 8 b)) = BitVec.ofNat 12 (0x200 + b) := by
  apply BitVec.eq_of_toNat_eq
  rw [encode, toNat_append_byte, BitVec.toNat_ofNat, BitVec.toNat_ofNat, BitVec.toNat_ofNat]
  omega

theorem encode_updateCommands {bs : List Nat} (hbs : ∀ b ∈ bs, b < 256) :
    (updateCommands (bs.map (BitVec.ofNat 8))).map encode = bs.map fun b => BitVec.ofNat 12 (0x200 + b) := by
  rw [updateCommands, List.map_map, List.map_map]
  exact List.map_congr_left fun b hb => encode_absorb_ofNat (hbs b hb)

theorem assemble_absorb {b : Nat} (hb : b < 256) : assemble (.absorb b) = some [BitVec.ofNat 12 (0x200 + b)] := by
  rw [← encode_absorb_ofNat hb]
  exact if_pos (decide_eq_true hb)

theorem assemble_word {w : Nat} (hw : w < 4096) : assemble (.word w) = some [BitVec.ofNat 12 w] :=
  if_pos (decide_eq_true hw)

theorem assemble_update {bs : List Nat} (hbs : ∀ b ∈ bs, b < 256) :
    assemble (.update bs) = some (bs.map fun b => BitVec.ofNat 12 (0x200 + b)) := by
  rw [← encode_updateCommands hbs]
  exact if_pos (by simpa [AsmLine.wellFormed] using hbs)

theorem assemble_hash {bs : List Nat} (hbs : ∀ b ∈ bs, b < 256) :
    assemble (.hash bs) = some (0x100 :: (bs.map fun b => BitVec.ofNat 12 (0x200 + b)) ++ [0x300]) := by
  have hwords : (hashCommands (bs.map (BitVec.ofNat 8))).map encode =
      0x100 :: (bs.map fun b => BitVec.ofNat 12 (0x200 + b)) ++ [0x300] := by
    rw [← encode_updateCommands hbs, hashCommands, List.map_append, List.map_append]
    rfl
  rw [← hwords]
  exact if_pos (by simpa [AsmLine.wellFormed] using hbs)

theorem assemble_ill_formed {l : AsmLine} (h : l.wellFormed = false) : assemble l = none :=
  if_neg (by simp [h])

/-- Settles O47: the words line by line, and an operand out of range makes the line ill formed. -/
theorem assemblerWords : Obligations.AssemblerWords :=
  ⟨rfl, rfl, rfl, fun _ => assemble_absorb, fun _ => assemble_word, fun _ hbs => ⟨assemble_update hbs, assemble_hash hbs⟩,
    fun _ hb => assemble_ill_formed (decide_eq_false (not_lt.mpr hb)),
    fun _ hw => assemble_ill_formed (decide_eq_false (not_lt.mpr hw))⟩

end Sys2Proof.Machine
end

section
/-! PROOFS. The equivalent forms of the Boolean functions and of the round constants (spec 40_compress.md R95): O33. -/

namespace Sys2Proof.Machine

/-! ### Majority and choice -/

theorem majority_eq_xor (x y z : Word) :
    (x &&& y) ||| (x &&& z) ||| (y &&& z) = (x &&& y) ^^^ (x &&& z) ^^^ (y &&& z) := by
  ext i hi
  simp only [BitVec.getElem_or, BitVec.getElem_and, BitVec.getElem_xor]
  cases x[i] <;> cases y[i] <;> cases z[i] <;> rfl

theorem majority_eq_or_and (x y z : Word) :
    (x &&& y) ||| (x &&& z) ||| (y &&& z) = (x &&& y) ||| ((x ||| y) &&& z) := by
  ext i hi
  simp only [BitVec.getElem_or, BitVec.getElem_and, Bool.and_or_distrib_right, Bool.or_assoc]

theorem choice_eq_xor (x y z : Word) : (x &&& y) ||| (~~~x &&& z) = (x &&& y) ^^^ (~~~x &&& z) := by
  ext i hi
  simp only [BitVec.getElem_or, BitVec.getElem_and, BitVec.getElem_xor, BitVec.getElem_not]
  cases x[i] <;> simp

theorem choice_eq_xor_and (x y z : Word) : (x &&& y) ||| (~~~x &&& z) = z ^^^ (x &&& (y ^^^ z)) := by
  ext i hi
  simp only [BitVec.getElem_or, BitVec.getElem_and, BitVec.getElem_xor, BitVec.getElem_not]
  cases x[i] <;> simp [Bool.xor_left_comm]

/-! ### The rotating constant -/

/-- Away from the change of `T` the constant is rotated by one more. -/
theorem roundK_succ {j : Fin 64} (hlast : j.val < 63) (hswitch : j.val ≠ 15) : roundK (j + 1) = rotl (roundK j) 1 := by
  have hsucc : (j + 1).val = j.val + 1 := Fin.val_add_one_of_lt' (by omega)
  have hT : roundT (j + 1) = roundT j := by
    rw [roundT, roundT, hsucc]
    exact if_congr (by omega) rfl rfl
  rw [roundK, roundK, rotl_rotl, hT]
  congr 1
  apply Fin.ext
  simp [hsucc]

/-- Settles O33: majority and choice bit by bit, and one rotation more a round. -/
theorem equivalentForms : Obligations.EquivalentForms := by
  refine ⟨fun j x y z h => ?_, rfl, rfl, fun j => roundK_succ⟩
  rw [FF_late x y z h, GG_late x y z h]
  exact ⟨majority_eq_xor x y z, majority_eq_or_and x y z, choice_eq_xor x y z, choice_eq_xor_and x y z⟩

end Sys2Proof.Machine
end
